-- ==== Sys2Proof/Word.lean ====
section
/-! DEFINITION. The values of the machine: 32-bit words, bytes, register indices (spec/00_scope.md R12, R101). -/

namespace Sys2Proof

/-- A register value, a pc value, an address or an instruction word: the spec's `u32` (R12). -/
abbrev Word := BitVec 32

/-- One byte of memory (R130). -/
abbrev Byte := BitVec 8

/-- A general register's index, 0 to 31 (R101). Every index may stand in every register field (R104). -/
abbrev RegIdx := Fin 32

end Sys2Proof
end

