-- ==== Sys2Proof/Machine/Flags.lean ====
section
/-! DEFINITION. The hardware has no flags and no condition codes (spec/10_state.md R120). What stands here is how its
comparisons deliver a result: as 0 or 1 in a register (R14, R120). -/

namespace Sys2Proof.Machine

/-- `bool(c)`: 1 if `c` holds, else 0 (R14). -/
def boolWord (c : Bool) : Word := if c then 1#32 else 0#32

/-- `a <s b`: the signed comparison of R14. -/
def ltSigned (a b : Word) : Bool := decide (a.toInt < b.toInt)

/-- `a <u b`: the unsigned comparison of R14. -/
def ltUnsigned (a b : Word) : Bool := decide (a.toNat < b.toNat)

end Sys2Proof.Machine
end

