-- ==== Sys2Proof/Machine/Alu.lean ====
section
/-! DEFINITION. The combinational ALU (spec/10_state.md R146; operators of spec/00_scope.md R14). -/

namespace Sys2Proof.Machine

/-- The operations of the ALU (R146). -/
inductive AluOp where
  | add | sub | sll | slt | sltu | xor | srl | sra | or | and
deriving DecidableEq, Repr

/-- `b[4:0]`: a shift uses only the low 5 bits of its second operand (R146, R451). -/
def shiftAmount (b : Word) : Nat := (b.extractLsb' 0 5).toNat

/-- The result of an ALU operation; all arithmetic is modulo 2^32 (R14, R146, R462). -/
def alu (op : AluOp) (a b : Word) : Word :=
  match op with
  | .add => a + b
  | .sub => a - b
  | .sll => a <<< shiftAmount b
  | .slt => boolWord (ltSigned a b)
  | .sltu => boolWord (ltUnsigned a b)
  | .xor => a ^^^ b
  | .srl => a >>> shiftAmount b
  | .sra => a.sshiftRight (shiftAmount b)
  | .or => a ||| b
  | .and => a &&& b

end Sys2Proof.Machine
end

