-- ==== Sys2Proof/Machine/Bits.lean ====
section
/-! DEFINITION. Extension (spec/00_scope.md R13), byte order (spec/20_memory.md R201) and the bits of a register
index. Decode.lean, the operand forms and the memory operations all use these, so each convention is fixed once. -/

namespace Sys2Proof.Machine

/-- `sext_N` of R13. -/
def sext {n : Nat} (v : BitVec n) : Word := v.signExtend 32

/-- `zext_N` of R13. -/
def zext {n : Nat} (v : BitVec n) : Word := v.setWidth 32

/-- Two bytes, the lowest address first, as a halfword: little-endian (R16, R201). -/
def halfOfBytes (b0 b1 : Byte) : BitVec 16 := b1 ++ b0

/-- Four bytes, the lowest address first, as a word: little-endian (R16, R201). -/
def wordOfBytes (b0 b1 b2 b3 : Byte) : Word := b3 ++ b2 ++ b1 ++ b0

/-- Byte `k` of a word, `w[8k+7:8k]` (R16). -/
def byteOfWord (w : Word) (k : Nat) : Byte := w.extractLsb' (8 * k) 8

/-- The bytes of a word as memory holds them, the lowest address first (R16, R201). -/
def bytesOfWord (w : Word) : List Byte := [byteOfWord w 0, byteOfWord w 1, byteOfWord w 2, byteOfWord w 3]

/-- A register index as the 5 bits of a register field. -/
def regBits (r : RegIdx) : BitVec 5 := BitVec.ofFin r

/-- The register index that 5 bits name (R312, R314, R315). -/
def regOfBits (b : BitVec 5) : RegIdx := b.toFin

/-- A field placed at bit `k` of a word, `v << k` (the packing of R303 to R306). -/
def place {n : Nat} (v : BitVec n) (k : Nat) : Word := v.setWidth 32 <<< k

end Sys2Proof.Machine
end

