-- ==== Sys2Proof/Syntax.lean ====
section
/-! DEFINITION. The 25 instructions (spec/00_scope.md R2), one constructor per row of spec/opcode_table.json. Operands
are the decoded fields of their format: register indices, the 12-bit immediate pattern (R304, R317), the 5-bit shift
amount (R305, R318) and the 21-bit jump offset pattern (R306, R319). -/

namespace Sys2Proof

/-- An instruction of `RV32I-subset-25` (R2). -/
inductive Instr where
  -- R-type, opcode 0x33 (41_register_alu.md R452 to R461)
  | add (rd rs1 rs2 : RegIdx)
  | sub (rd rs1 rs2 : RegIdx)
  | sll (rd rs1 rs2 : RegIdx)
  | slt (rd rs1 rs2 : RegIdx)
  | sltu (rd rs1 rs2 : RegIdx)
  | xor (rd rs1 rs2 : RegIdx)
  | srl (rd rs1 rs2 : RegIdx)
  | sra (rd rs1 rs2 : RegIdx)
  | or (rd rs1 rs2 : RegIdx)
  | and (rd rs1 rs2 : RegIdx)
  -- I-type, opcode 0x13 (42_immediate_alu.md R502 to R507)
  | addi (rd rs1 : RegIdx) (imm : BitVec 12)
  | slti (rd rs1 : RegIdx) (imm : BitVec 12)
  | sltiu (rd rs1 : RegIdx) (imm : BitVec 12)
  | xori (rd rs1 : RegIdx) (imm : BitVec 12)
  | ori (rd rs1 : RegIdx) (imm : BitVec 12)
  | andi (rd rs1 : RegIdx) (imm : BitVec 12)
  -- shift-immediate, opcode 0x13 (42_immediate_alu.md R521 to R523)
  | slli (rd rs1 : RegIdx) (shamt : BitVec 5)
  | srli (rd rs1 : RegIdx) (shamt : BitVec 5)
  | srai (rd rs1 : RegIdx) (shamt : BitVec 5)
  -- loads, opcode 0x03 (43_loads.md R560 to R564); `rs1` is the base, `imm` the offset
  | lb (rd rs1 : RegIdx) (imm : BitVec 12)
  | lh (rd rs1 : RegIdx) (imm : BitVec 12)
  | lw (rd rs1 : RegIdx) (imm : BitVec 12)
  | lbu (rd rs1 : RegIdx) (imm : BitVec 12)
  | lhu (rd rs1 : RegIdx) (imm : BitVec 12)
  -- J-type, opcode 0x6F (44_jump.md R601)
  | jal (rd : RegIdx) (offset : BitVec 21)
deriving DecidableEq, Repr

end Sys2Proof
end

