-- ==== Sys2Proof/Decode.lean ====
section
/-! DEFINITION. The decoder (spec/30_encoding.md R310 to R345), then the encoder (R303 to R306, R358 to R362), then
the rows of spec/opcode_table.json as masks and patterns. The funct3 values are the spec's G1 (log entry 2). -/

namespace Sys2Proof

open Sys2Proof.Machine

/-! ### Field extraction (R310 to R319) -/

/-- All the fields of a word, whatever its format (R310). The immediate and the jump offset are kept as the patterns
of bits; `Fields.imm` and `Fields.jimm` are their `u32` values. -/
structure Fields where
  opcode : BitVec 7
  rd : RegIdx
  funct3 : BitVec 3
  rs1 : RegIdx
  rs2 : RegIdx
  funct7 : BitVec 7
  immBits : BitVec 12
  shamt : BitVec 5
  jimmBits : BitVec 21
deriving DecidableEq, Repr

/-- The J-type offset pattern of R319: `w[31] ++ w[19:12] ++ w[20] ++ w[30:21] ++ 0`. -/
def jimmBitsOf (w : Word) : BitVec 21 :=
  w.extractLsb' 31 1 ++ w.extractLsb' 12 8 ++ w.extractLsb' 20 1 ++ w.extractLsb' 21 10 ++ 0#1

/-- The combinational decoder: it extracts every field and never fails (R310 to R319, R404). -/
def fieldsOf (w : Word) : Fields where
  opcode := w.extractLsb' 0 7
  rd := regOfBits (w.extractLsb' 7 5)
  funct3 := w.extractLsb' 12 3
  rs1 := regOfBits (w.extractLsb' 15 5)
  rs2 := regOfBits (w.extractLsb' 20 5)
  funct7 := w.extractLsb' 25 7
  immBits := w.extractLsb' 20 12
  shamt := w.extractLsb' 20 5
  jimmBits := jimmBitsOf w

/-- `imm = sext_12(w[31:20])` (R317). -/
def Fields.imm (f : Fields) : Word := sext f.immBits

/-- `jimm = sext_21(…)` (R319). -/
def Fields.jimm (f : Fields) : Word := sext f.jimmBits

/-! ### Dispatch on opcode, funct3, funct7 (R330 to R345) -/

/-- The three encoding failures of R340 to R342. -/
inductive DecodeError where
  | unknownOpcode
  | unknownFunct3
  | invalidFunct7
deriving DecidableEq, Repr

/-- `i` if `funct7 = 0x00`, else InvalidFunct7: the rows of R331 and R332 that admit one funct7 (D4, D5). -/
def needFunct7Zero (f : Fields) (i : Instr) : Except DecodeError Instr :=
  if f.funct7 = 0x00#7 then .ok i else .error .invalidFunct7

/-- `i0` if `funct7 = 0x00`, `i1` if `funct7 = 0x20`, else InvalidFunct7: the rows of R331 and R332 that admit two. -/
def pickFunct7 (f : Fields) (i0 i1 : Instr) : Except DecodeError Instr :=
  if f.funct7 = 0x00#7 then .ok i0 else if f.funct7 = 0x20#7 then .ok i1 else .error .invalidFunct7

/-- Opcode 0x33: the table of R331. -/
def decodeOp (f : Fields) : Except DecodeError Instr :=
  match (f.funct3.toFin : Fin 8) with
  | 0 => pickFunct7 f (.add f.rd f.rs1 f.rs2) (.sub f.rd f.rs1 f.rs2)
  | 1 => needFunct7Zero f (.sll f.rd f.rs1 f.rs2)
  | 2 => needFunct7Zero f (.slt f.rd f.rs1 f.rs2)
  | 3 => needFunct7Zero f (.sltu f.rd f.rs1 f.rs2)
  | 4 => needFunct7Zero f (.xor f.rd f.rs1 f.rs2)
  | 5 => pickFunct7 f (.srl f.rd f.rs1 f.rs2) (.sra f.rd f.rs1 f.rs2)
  | 6 => needFunct7Zero f (.or f.rd f.rs1 f.rs2)
  | 7 => needFunct7Zero f (.and f.rd f.rs1 f.rs2)

/-- Opcode 0x13: the table of R332. -/
def decodeOpImm (f : Fields) : Except DecodeError Instr :=
  match (f.funct3.toFin : Fin 8) with
  | 0 => .ok (.addi f.rd f.rs1 f.immBits)
  | 1 => needFunct7Zero f (.slli f.rd f.rs1 f.shamt)
  | 2 => .ok (.slti f.rd f.rs1 f.immBits)
  | 3 => .ok (.sltiu f.rd f.rs1 f.immBits)
  | 4 => .ok (.xori f.rd f.rs1 f.immBits)
  | 5 => pickFunct7 f (.srli f.rd f.rs1 f.shamt) (.srai f.rd f.rs1 f.shamt)
  | 6 => .ok (.ori f.rd f.rs1 f.immBits)
  | 7 => .ok (.andi f.rd f.rs1 f.immBits)

/-- Opcode 0x03: the table of R333. -/
def decodeLoad (f : Fields) : Except DecodeError Instr :=
  match (f.funct3.toFin : Fin 8) with
  | 0 => .ok (.lb f.rd f.rs1 f.immBits)
  | 1 => .ok (.lh f.rd f.rs1 f.immBits)
  | 2 => .ok (.lw f.rd f.rs1 f.immBits)
  | 3 => .error .unknownFunct3
  | 4 => .ok (.lbu f.rd f.rs1 f.immBits)
  | 5 => .ok (.lhu f.rd f.rs1 f.immBits)
  | 6 => .error .unknownFunct3
  | 7 => .error .unknownFunct3

/-- Opcode 0x6F: every word is a `jal` (R334). -/
def decodeJal (f : Fields) : Except DecodeError Instr := .ok (.jal f.rd f.jimmBits)

/-- The dispatch of R330 and R405 on the fields: opcode first, then funct3, then funct7 (R345). -/
def dispatchFields (f : Fields) : Except DecodeError Instr :=
  if f.opcode = 0x33#7 then decodeOp f
  else if f.opcode = 0x13#7 then decodeOpImm f
  else if f.opcode = 0x03#7 then decodeLoad f
  else if f.opcode = 0x6F#7 then decodeJal f
  else .error .unknownOpcode

/-- The instruction a word stands for, or the encoding failure it raises (R340 to R345). -/
def decode (w : Word) : Except DecodeError Instr := dispatchFields (fieldsOf w)

/-- Why bytes give no instruction: fewer than the four bytes of a word (R301; the engine's fetch always supplies
four), or a word that fails to decode. -/
inductive BytesError where
  | tooFewBytes
  | word (e : DecodeError)
deriving DecidableEq, Repr

/-- The instruction at the head of a list of bytes as memory holds them (R201, R301), with the bytes after it. -/
def decodeBytes : List Byte → Except BytesError (Instr × List Byte)
  | b0 :: b1 :: b2 :: b3 :: rest =>
    match decode (wordOfBytes b0 b1 b2 b3) with
    | .ok i => .ok (i, rest)
    | .error e => .error (.word e)
  | _ => .error .tooFewBytes

/-- The word of an instruction whose bits are `w`, the bits from `nbits` on zero. -/
def tableWord (nbits w : Nat) : Word := BitVec.ofNat 32 (w % 2 ^ nbits)

/-- The instruction the decoder reads from the bytes of `tableWord nbits w`; `none` where it refuses. -/
def decodeTableWord (nbits w : Nat) : Option Instr :=
  match decodeBytes (bytesOfWord (tableWord nbits w)) with
  | .ok (i, _) => some i
  | .error _ => none

/-! ### The encoder (R303 to R306) -/

/-- R-type word `funct7<<25 | rs2<<20 | rs1<<15 | funct3<<12 | rd<<7 | opcode`, and the shift-immediate word with the
shift amount in the `rs2` position (R303, R305). -/
def encodeR (funct7 : BitVec 7) (rs2 : BitVec 5) (rs1 : RegIdx) (funct3 : BitVec 3) (rd : RegIdx) (opcode : BitVec 7) :
    Word :=
  place funct7 25 ||| place rs2 20 ||| place (regBits rs1) 15 ||| place funct3 12 ||| place (regBits rd) 7 |||
    place opcode 0

/-- I-type word `imm<<20 | rs1<<15 | funct3<<12 | rd<<7 | opcode` (R304). -/
def encodeI (imm : BitVec 12) (rs1 : RegIdx) (funct3 : BitVec 3) (rd : RegIdx) (opcode : BitVec 7) : Word :=
  place imm 20 ||| place (regBits rs1) 15 ||| place funct3 12 ||| place (regBits rd) 7 ||| place opcode 0

/-- J-type word: offset bit 20 at bit 31, bits 10:1 at 30:21, bit 11 at 20, bits 19:12 at 19:12 (R306). -/
def encodeJ (offset : BitVec 21) (rd : RegIdx) (opcode : BitVec 7) : Word :=
  place (offset.extractLsb' 20 1) 31 ||| place (offset.extractLsb' 1 10) 21 ||| place (offset.extractLsb' 11 1) 20 |||
    place (offset.extractLsb' 12 8) 12 ||| place (regBits rd) 7 ||| place opcode 0

/-- The word of an instruction (R358 to R362). -/
def encode : Instr → Word
  | .add rd rs1 rs2 => encodeR 0x00#7 (regBits rs2) rs1 0b000#3 rd 0x33#7
  | .sub rd rs1 rs2 => encodeR 0x20#7 (regBits rs2) rs1 0b000#3 rd 0x33#7
  | .sll rd rs1 rs2 => encodeR 0x00#7 (regBits rs2) rs1 0b001#3 rd 0x33#7
  | .slt rd rs1 rs2 => encodeR 0x00#7 (regBits rs2) rs1 0b010#3 rd 0x33#7
  | .sltu rd rs1 rs2 => encodeR 0x00#7 (regBits rs2) rs1 0b011#3 rd 0x33#7
  | .xor rd rs1 rs2 => encodeR 0x00#7 (regBits rs2) rs1 0b100#3 rd 0x33#7
  | .srl rd rs1 rs2 => encodeR 0x00#7 (regBits rs2) rs1 0b101#3 rd 0x33#7
  | .sra rd rs1 rs2 => encodeR 0x20#7 (regBits rs2) rs1 0b101#3 rd 0x33#7
  | .or rd rs1 rs2 => encodeR 0x00#7 (regBits rs2) rs1 0b110#3 rd 0x33#7
  | .and rd rs1 rs2 => encodeR 0x00#7 (regBits rs2) rs1 0b111#3 rd 0x33#7
  | .addi rd rs1 imm => encodeI imm rs1 0b000#3 rd 0x13#7
  | .slti rd rs1 imm => encodeI imm rs1 0b010#3 rd 0x13#7
  | .sltiu rd rs1 imm => encodeI imm rs1 0b011#3 rd 0x13#7
  | .xori rd rs1 imm => encodeI imm rs1 0b100#3 rd 0x13#7
  | .ori rd rs1 imm => encodeI imm rs1 0b110#3 rd 0x13#7
  | .andi rd rs1 imm => encodeI imm rs1 0b111#3 rd 0x13#7
  | .slli rd rs1 shamt => encodeR 0x00#7 shamt rs1 0b001#3 rd 0x13#7
  | .srli rd rs1 shamt => encodeR 0x00#7 shamt rs1 0b101#3 rd 0x13#7
  | .srai rd rs1 shamt => encodeR 0x20#7 shamt rs1 0b101#3 rd 0x13#7
  | .lb rd rs1 imm => encodeI imm rs1 0b000#3 rd 0x03#7
  | .lh rd rs1 imm => encodeI imm rs1 0b001#3 rd 0x03#7
  | .lw rd rs1 imm => encodeI imm rs1 0b010#3 rd 0x03#7
  | .lbu rd rs1 imm => encodeI imm rs1 0b100#3 rd 0x03#7
  | .lhu rd rs1 imm => encodeI imm rs1 0b101#3 rd 0x03#7
  | .jal rd offset => encodeJ offset rd 0x6F#7

/-- The bytes of an instruction as memory holds them. -/
def encodeBytes (i : Instr) : List Byte := bytesOfWord (encode i)

/-! ### The rows of spec/opcode_table.json -/

/-- The `mask` of the instruction's row. -/
def Instr.rowMask : Instr → Word
  | .add _ _ _ | .sub _ _ _ | .sll _ _ _ | .slt _ _ _ | .sltu _ _ _ => 0xFE00707F#32
  | .xor _ _ _ | .srl _ _ _ | .sra _ _ _ | .or _ _ _ | .and _ _ _ => 0xFE00707F#32
  | .addi _ _ _ | .slti _ _ _ | .sltiu _ _ _ | .xori _ _ _ | .ori _ _ _ | .andi _ _ _ => 0x0000707F#32
  | .slli _ _ _ | .srli _ _ _ | .srai _ _ _ => 0xFE00707F#32
  | .lb _ _ _ | .lh _ _ _ | .lw _ _ _ | .lbu _ _ _ | .lhu _ _ _ => 0x0000707F#32
  | .jal _ _ => 0x0000007F#32

/-- The `match` of the instruction's row. -/
def Instr.rowMatch : Instr → Word
  | .add _ _ _ => 0x00000033#32
  | .sub _ _ _ => 0x40000033#32
  | .sll _ _ _ => 0x00001033#32
  | .slt _ _ _ => 0x00002033#32
  | .sltu _ _ _ => 0x00003033#32
  | .xor _ _ _ => 0x00004033#32
  | .srl _ _ _ => 0x00005033#32
  | .sra _ _ _ => 0x40005033#32
  | .or _ _ _ => 0x00006033#32
  | .and _ _ _ => 0x00007033#32
  | .addi _ _ _ => 0x00000013#32
  | .slti _ _ _ => 0x00002013#32
  | .sltiu _ _ _ => 0x00003013#32
  | .xori _ _ _ => 0x00004013#32
  | .ori _ _ _ => 0x00006013#32
  | .andi _ _ _ => 0x00007013#32
  | .slli _ _ _ => 0x00001013#32
  | .srli _ _ _ => 0x00005013#32
  | .srai _ _ _ => 0x40005013#32
  | .lb _ _ _ => 0x00000003#32
  | .lh _ _ _ => 0x00001003#32
  | .lw _ _ _ => 0x00002003#32
  | .lbu _ _ _ => 0x00004003#32
  | .lhu _ _ _ => 0x00005003#32
  | .jal _ _ => 0x0000006F#32

end Sys2Proof
end

