-- ==== Sys2Proof/Config.lean ====
section
/-! DEFINITION. The parameters of the hardware (spec/00_scope.md R9, all fixed) and the one value the spec leaves
open in the toolchain. -/

namespace Sys2Proof.Config

/-- `MEM_SIZE`: bytes of memory (R9, R130). -/
abbrev memSize : Nat := 0x10000

/-- `BASE`: where programs are placed and where the pc starts (R9, R112). -/
abbrev base : Nat := 0x1000

/-- `MAX_WORDS`: how many words fit in `[BASE, MEM_SIZE)` (R9, R210). -/
abbrev maxWords : Nat := (memSize - base) / 4

/-- Free value (log entry 18, DESIGN CHOICE, safe): which error the assembler gives for a load operand whose base
number is above 31 AND whose offset is out of range. R356 orders operands and, within one operand, form before range;
R361 names both errors and orders neither. `true`: BadRegister; `false`: ImmediateOutOfRange. -/
opaque loadBaseErrorFirst : Bool

end Sys2Proof.Config
end

