-- ==== Sys2Proof/Machine/State.lean ====
section
/-! DEFINITION. The state of the machine as plain data (spec/10_state.md R101 to R150), its reset value (R802), and
the reasons a step can stop. -/

namespace Sys2Proof.Machine

/-- The seven execution-time errors as kinds, in the order of R701. -/
inductive ErrorKind where
  | pcOutOfBounds
  | invalidMemoryAccess
  | invalidMemoryAddress
  | unknownOpcode
  | unknownFunct3
  | invalidFunct7
  | unalignedJump
deriving DecidableEq, Repr

/-- An execution-time error `E` together with the diagnostic `info` it records (R701, R711; D13): the `pc` of the step,
and the effective address `ea` or the fetched word `w` where the table of R701 lists it. -/
inductive ExecError where
  | pcOutOfBounds (pc : Word)
  | invalidMemoryAccess (pc : Word)
  | invalidMemoryAddress (pc ea : Word)
  | unknownOpcode (pc w : Word)
  | unknownFunct3 (pc w : Word)
  | invalidFunct7 (pc w : Word)
  | unalignedJump (pc w : Word)
deriving DecidableEq, Repr

/-- The diagnostic record of R711. -/
inductive Info where
  | atPc (pc : Word)
  | atAddress (pc ea : Word)
  | atWord (pc w : Word)
deriving DecidableEq, Repr

/-- The engine status (R122, R410): ready to fetch, or halted on an error. -/
inductive Status where
  | run
  | halted (e : ExecError)
deriving DecidableEq, Repr

/-- Memory as its listed bytes, addresses strictly rising and no byte zero; an unlisted address reads as zero, the
reset contents (R130). `Memory.wf` in Machine/Memory.lean says the form. -/
abbrev Memory := List Host.Cell

/-- The complete state (R150). `x` holds a slot for every register, `x0` too; `x0` is read and written only through
`State.readReg` and `State.writeReg`, which hard-wire it (R102, R103). -/
structure State where
  x : Vector Word 32
  pc : Word
  mem : Memory
  status : Status
deriving DecidableEq, Repr

/-- The machine after reset: a fresh CPU State with no program loaded (R150, R801, R802). -/
def State.reset : State where
  x := Vector.replicate 32 0#32
  pc := 0x1000#32
  mem := []
  status := .run

/-- Why a step stops the model. An execution-time error of R701 is no `Fault`: it is taken, as the spec describes it,
and leaves a next state whose status is `halted`. -/
inductive Fault where
  /-- Raised by `step` when a step is requested while `status = HALTED`: no step is enabled there (R410, R721; U15
  "stuck"). Safe: the model stops where the hardware does nothing. -/
  | halted
deriving DecidableEq, Repr

/-- Why the model gives an instruction no meaning. -/
inductive Refusal where
  /-- Raised by an arm of `exec` whose instruction has no meaning yet. No arm of this model raises it. Safe. -/
  | notModelled (mnemonic : String)
deriving DecidableEq, Repr

end Sys2Proof.Machine
end

