-- ==== Sys2Proof/Machine/Memory.lean ====
section
/-! DEFINITION. The memory primitives (spec/00_scope.md R16, spec/20_memory.md R201): reads of 1, 2 and 4 bytes,
writes of a byte and of a word, and the canonical form. They check nothing (R16); every check is the caller's. -/

namespace Sys2Proof.Machine

/-- What an unlisted address reads as: the reset contents (R130, "Zero-initialized"). -/
def Memory.unlisted : Byte := 0#8

/-- The byte at address `a`. -/
def Memory.read : Memory → Nat → Byte
  | [], _ => Memory.unlisted
  | (k, b) :: m, a => if k = a then b else Memory.read m a

/-- `MemRead(a, 2)`: the byte at the lowest address is the least significant (R16, R201). -/
def Memory.read16 (m : Memory) (a : Nat) : BitVec 16 := halfOfBytes (m.read a) (m.read (a + 1))

/-- `MemRead(a, 4)`: the byte at the lowest address is the least significant (R16, R201). -/
def Memory.read32 (m : Memory) (a : Nat) : Word :=
  wordOfBytes (m.read a) (m.read (a + 1)) (m.read (a + 2)) (m.read (a + 3))

/-- Store byte `b` at address `a` in a canonical list: in address order, and no entry for a byte that reads as
unlisted. -/
def Memory.insert : Memory → Nat → Byte → Memory
  | [], a, b => if b = Memory.unlisted then [] else [(a, b)]
  | (k, c) :: m, a, b =>
    if k < a then (k, c) :: Memory.insert m a b
    else if k = a then (if b = Memory.unlisted then m else (a, b) :: m)
    else if b = Memory.unlisted then (k, c) :: m
    else (a, b) :: (k, c) :: m

/-- `MemWrite(a, 1, b)`. An address at or above `MEM_SIZE` names no byte (R131), so nothing is stored there
(log entry 11). -/
def Memory.write (m : Memory) (a : Nat) (b : Byte) : Memory :=
  if a < Config.memSize then m.insert a b else m

/-- `MemWrite(a, 4, w)`: byte `k` of `w` at `a + k` (R16, R144). -/
def Memory.write32 (m : Memory) (a : Nat) (w : Word) : Memory :=
  (((m.write a (byteOfWord w 0)).write (a + 1) (byteOfWord w 1)).write (a + 2) (byteOfWord w 2)).write (a + 3)
    (byteOfWord w 3)

/-- The canonical form from address `lo` on. -/
def Memory.wfFrom (lo : Nat) : Memory → Bool
  | [] => true
  | (k, b) :: m => decide (lo ≤ k) && decide (k < Config.memSize) && (b != Memory.unlisted) && Memory.wfFrom (k + 1) m

/-- The canonical form: addresses strictly rising and below `MEM_SIZE`, and no entry equal to what an unlisted
address reads as. -/
def Memory.wf (m : Memory) : Bool := Memory.wfFrom 0 m

/-- The fetch port (R141): the word at `a`, or none where it passes the memory's end. It checks no alignment (R221). -/
def Memory.ifetch (m : Memory) (a : Word) : Option Word :=
  if a.toNat + 4 ≤ Config.memSize then some (m.read32 a.toNat) else none

end Sys2Proof.Machine
end

