-- ==== Sys2Proof/Machine/Ops.lean ====
section
/-! DEFINITION. The named operations over the state: the register-file ports (spec/10_state.md R145), ending an
instruction (spec/40_execution_cycle.md R406), taking a failure (spec/60_exceptions.md R710), and the step's pc check
and fetch (R402, R403). There is no return from a failure: only a reset leaves `HALTED` (R740). -/

namespace Sys2Proof.Machine

/-! ### Registers and pc -/

/-- Read port of the register file: `x0` reads 0 whatever its slot holds (R102, R145). -/
def State.readReg (s : State) (r : RegIdx) : Word := if r = 0 then 0#32 else s.x[r]

/-- Write port of the register file: a write to `x0` is discarded (R103, R145). -/
def State.writeReg (s : State) (r : RegIdx) (v : Word) : State := if r = 0 then s else { s with x := s.x.set r v }

/-- `pc <- t` (R18). -/
def State.setPc (s : State) (t : Word) : State := { s with pc := t }

/-- The effects of a successful instruction: one register write and one pc write (R406). -/
def State.commit (s : State) (rd : RegIdx) (v target : Word) : State := (s.writeReg rd v).setPc target

/-- The address of the next word, `pc +32 4` (R111, R115). -/
def State.nextPc (s : State) : Word := s.pc + 4#32

/-- Write `x[rd]` and advance the pc by 4: how every instruction but `jal` ends (R111, R451, R501, R553). -/
def State.retire (s : State) (rd : RegIdx) (v : Word) : State := s.commit rd v s.nextPc

/-! ### Failures -/

/-- Failure entry: `status <- HALTED(E, info)` and nothing else (R407, R710; D11). -/
def State.raise (s : State) (e : ExecError) : State := { s with status := .halted e }

/-- The kind of an error (R701). -/
def ExecError.kind : ExecError → ErrorKind
  | .pcOutOfBounds _ => .pcOutOfBounds
  | .invalidMemoryAccess _ => .invalidMemoryAccess
  | .invalidMemoryAddress _ _ => .invalidMemoryAddress
  | .unknownOpcode _ _ => .unknownOpcode
  | .unknownFunct3 _ _ => .unknownFunct3
  | .invalidFunct7 _ _ => .invalidFunct7
  | .unalignedJump _ _ => .unalignedJump

/-- The code column of R701 (the spec's own numbering, D12). -/
def ErrorKind.code : ErrorKind → Nat
  | .pcOutOfBounds => 1
  | .invalidMemoryAccess => 2
  | .invalidMemoryAddress => 3
  | .unknownOpcode => 4
  | .unknownFunct3 => 5
  | .invalidFunct7 => 6
  | .unalignedJump => 7

/-- The `info` column of R701 (R711). -/
def ExecError.info : ExecError → Info
  | .pcOutOfBounds pc => .atPc pc
  | .invalidMemoryAccess pc => .atPc pc
  | .invalidMemoryAddress pc ea => .atAddress pc ea
  | .unknownOpcode pc w => .atWord pc w
  | .unknownFunct3 pc w => .atWord pc w
  | .invalidFunct7 pc w => .atWord pc w
  | .unalignedJump pc w => .atWord pc w

/-- The `pc` of the step that raised the error (R711). -/
def Info.pc : Info → Word
  | .atPc pc => pc
  | .atAddress pc _ => pc
  | .atWord pc _ => pc

/-- `status.error` with `status.info`, absent when `RUN` (R122, R140). -/
def Status.error? : Status → Option ExecError
  | .run => none
  | .halted e => some e

/-! ### The start of a step -/

/-- The pc range check `BASE <= pc < MEM_SIZE` (R402). -/
def State.pcInRange (s : State) : Bool := decide (Config.base ≤ s.pc.toNat) && decide (s.pc.toNat < Config.memSize)

/-- The first two actions of a step: the pc range check (R402), then the fetch (R403). -/
def State.fetch (s : State) : Except ExecError Word :=
  if s.pcInRange then
    match s.mem.ifetch s.pc with
    | some w => .ok w
    | none => .error (.invalidMemoryAccess s.pc)
  else .error (.pcOutOfBounds s.pc)

/-- The execution-time error a word that fails to decode raises (R340 to R342, R701). -/
def decodeFailure (pc w : Word) : DecodeError → ExecError
  | .unknownOpcode => .unknownOpcode pc w
  | .unknownFunct3 => .unknownFunct3 pc w
  | .invalidFunct7 => .invalidFunct7 pc w

end Sys2Proof.Machine
end

