-- ==== Sys2Proof/Machine/Operands.lean ====
section
/-! DEFINITION. The operand forms: immediates (spec/30_encoding.md R317 to R321), the loads' effective address and its
checks (spec/43_loads.md R551, R552), the jump target (spec/44_jump.md R604). -/

namespace Sys2Proof.Machine

/-- The value of a 12-bit immediate, sign-extended (R317, R321). -/
def immValue (imm : BitVec 12) : Word := sext imm

/-- The value of a shift amount; 5 bits, so the re-check `shamt > 31` of R530 never fires (R318; D3, log entry 3). -/
def shamtValue (shamt : BitVec 5) : Word := zext shamt

/-- The value of a jump offset, sign-extended (R319). -/
def offsetValue (offset : BitVec 21) : Word := sext offset

/-- Effective address `x[rs1] +32 imm`, modulo 2^32 (R551; D7). -/
def effectiveAddress (s : State) (rs1 : RegIdx) (imm : BitVec 12) : Word := s.readReg rs1 + immValue imm

/-- A load of `n` bytes at `ea` passes its checks: in memory, computed on naturals without wrap, and aligned to `n`
(R220, R223, R552; D24). -/
def loadAddressOk (n : Nat) (ea : Word) : Bool := decide (ea.toNat + n ≤ Config.memSize) && decide (ea.toNat % n = 0)

/-- The alignment check of `jal`: the offset is a multiple of 4 (R602). -/
def jumpAligned (offset : BitVec 21) : Bool := decide ((offsetValue offset).toNat % 4 = 0)

/-- The target of `jal`: `pc +32 offset`, relative to the `jal` itself, modulo 2^32 (R604; D9). -/
def jumpTarget (s : State) (offset : BitVec 21) : Word := s.pc + offsetValue offset

end Sys2Proof.Machine
end

