-- ==== Sys2Proof/Machine/ImmediateAlu.lean ====
section
/-! DEFINITION. The six register-immediate and three shift-immediate instructions (spec/42_immediate_alu.md R501 to
R530). The funct7 checks of the shifts are made by the decoder (R332, R345). -/

namespace Sys2Proof.Machine

/-- Shared effect of R501: `x[rd] <- ALU(op, x[rs1], v)`, the operand read before the write; `pc <- pc +32 4`. -/
def aluImm (op : AluOp) (rd rs1 : RegIdx) (v : Word) (s : State) : Host.Outcome State Fault Refusal :=
  .next (s.retire rd (alu op (s.readReg rs1) v))

/-- R502: `addi rd, rs1, imm`. -/
def execAddi (rd rs1 : RegIdx) (imm : BitVec 12) (s : State) : Host.Outcome State Fault Refusal :=
  aluImm .add rd rs1 (immValue imm) s

/-- R503: `slti rd, rs1, imm`. -/
def execSlti (rd rs1 : RegIdx) (imm : BitVec 12) (s : State) : Host.Outcome State Fault Refusal :=
  aluImm .slt rd rs1 (immValue imm) s

/-- R504: `sltiu rd, rs1, imm`. -/
def execSltiu (rd rs1 : RegIdx) (imm : BitVec 12) (s : State) : Host.Outcome State Fault Refusal :=
  aluImm .sltu rd rs1 (immValue imm) s

/-- R505: `xori rd, rs1, imm`. -/
def execXori (rd rs1 : RegIdx) (imm : BitVec 12) (s : State) : Host.Outcome State Fault Refusal :=
  aluImm .xor rd rs1 (immValue imm) s

/-- R506: `ori rd, rs1, imm`. -/
def execOri (rd rs1 : RegIdx) (imm : BitVec 12) (s : State) : Host.Outcome State Fault Refusal :=
  aluImm .or rd rs1 (immValue imm) s

/-- R507: `andi rd, rs1, imm`. -/
def execAndi (rd rs1 : RegIdx) (imm : BitVec 12) (s : State) : Host.Outcome State Fault Refusal :=
  aluImm .and rd rs1 (immValue imm) s

/-- R521: `slli rd, rs1, shamt`. -/
def execSlli (rd rs1 : RegIdx) (shamt : BitVec 5) (s : State) : Host.Outcome State Fault Refusal :=
  aluImm .sll rd rs1 (shamtValue shamt) s

/-- R522: `srli rd, rs1, shamt`. -/
def execSrli (rd rs1 : RegIdx) (shamt : BitVec 5) (s : State) : Host.Outcome State Fault Refusal :=
  aluImm .srl rd rs1 (shamtValue shamt) s

/-- R523: `srai rd, rs1, shamt`. -/
def execSrai (rd rs1 : RegIdx) (shamt : BitVec 5) (s : State) : Host.Outcome State Fault Refusal :=
  aluImm .sra rd rs1 (shamtValue shamt) s

end Sys2Proof.Machine
end

