-- ==== Sys2Proof/Machine/Jump.lean ====
section
/-! DEFINITION. The jump (spec/44_jump.md R601 to R606). -/

namespace Sys2Proof.Machine

/-- R601: `jal rd, offset`. The alignment check comes before any write (R602); the link is the `jal`'s own address, the
pc before the update, not `pc + 4` (R603, C1); the target is not range-checked here (R605). The word `w` that the error
records is the instruction's own word, all of whose bits the operands carry (R334, R344; log entry 13). -/
def execJal (rd : RegIdx) (offset : BitVec 21) (s : State) : Host.Outcome State Fault Refusal :=
  if jumpAligned offset then .next (s.commit rd s.pc (jumpTarget s offset))
  else .next (s.raise (.unalignedJump s.pc (encode (.jal rd offset))))

end Sys2Proof.Machine
end

