-- ==== Sys2Proof/Machine/Load.lean ====
section
/-! DEFINITION. The five loads (spec/43_loads.md R551 to R564). -/

namespace Sys2Proof.Machine

/-- Shared effect of R551 to R553: check the effective address before any memory is read, whatever `rd` is; then
`x[rd] <- value` read through the data port (R142) and `pc <- pc +32 4`. `n` is the width in bytes, `value` the
extended `MemRead(EA, n)`. -/
def load (n : Nat) (value : Memory → Nat → Word) (rd rs1 : RegIdx) (imm : BitVec 12) (s : State) :
    Host.Outcome State Fault Refusal :=
  let ea := effectiveAddress s rs1 imm
  if loadAddressOk n ea then .next (s.retire rd (value s.mem ea.toNat))
  else .next (s.raise (.invalidMemoryAddress s.pc ea))

/-- R560: `lb rd, offset(rs1)`, a byte, sign-extended. -/
def execLb (rd rs1 : RegIdx) (imm : BitVec 12) (s : State) : Host.Outcome State Fault Refusal :=
  load 1 (fun m a => sext (m.read a)) rd rs1 imm s

/-- R561: `lh rd, offset(rs1)`, a halfword, sign-extended. -/
def execLh (rd rs1 : RegIdx) (imm : BitVec 12) (s : State) : Host.Outcome State Fault Refusal :=
  load 2 (fun m a => sext (m.read16 a)) rd rs1 imm s

/-- R562: `lw rd, offset(rs1)`, a word. -/
def execLw (rd rs1 : RegIdx) (imm : BitVec 12) (s : State) : Host.Outcome State Fault Refusal :=
  load 4 (fun m a => m.read32 a) rd rs1 imm s

/-- R563: `lbu rd, offset(rs1)`, a byte, zero-extended. -/
def execLbu (rd rs1 : RegIdx) (imm : BitVec 12) (s : State) : Host.Outcome State Fault Refusal :=
  load 1 (fun m a => zext (m.read a)) rd rs1 imm s

/-- R564: `lhu rd, offset(rs1)`, a halfword, zero-extended. -/
def execLhu (rd rs1 : RegIdx) (imm : BitVec 12) (s : State) : Host.Outcome State Fault Refusal :=
  load 2 (fun m a => zext (m.read16 a)) rd rs1 imm s

end Sys2Proof.Machine
end

