-- ==== Sys2Proof/Machine/RegisterAlu.lean ====
section
/-! DEFINITION. The ten register-register instructions (spec/41_register_alu.md R451 to R462). -/

namespace Sys2Proof.Machine

/-- Shared effect of R451: `x[rd] <- ALU(op, x[rs1], x[rs2])`, both operands read before the write; `pc <- pc +32 4`. -/
def aluReg (op : AluOp) (rd rs1 rs2 : RegIdx) (s : State) : Host.Outcome State Fault Refusal :=
  .next (s.retire rd (alu op (s.readReg rs1) (s.readReg rs2)))

/-- R452: `add rd, rs1, rs2`. -/
def execAdd (rd rs1 rs2 : RegIdx) (s : State) : Host.Outcome State Fault Refusal := aluReg .add rd rs1 rs2 s

/-- R453: `sub rd, rs1, rs2`. -/
def execSub (rd rs1 rs2 : RegIdx) (s : State) : Host.Outcome State Fault Refusal := aluReg .sub rd rs1 rs2 s

/-- R454: `sll rd, rs1, rs2`. -/
def execSll (rd rs1 rs2 : RegIdx) (s : State) : Host.Outcome State Fault Refusal := aluReg .sll rd rs1 rs2 s

/-- R455: `slt rd, rs1, rs2`. -/
def execSlt (rd rs1 rs2 : RegIdx) (s : State) : Host.Outcome State Fault Refusal := aluReg .slt rd rs1 rs2 s

/-- R456: `sltu rd, rs1, rs2`. -/
def execSltu (rd rs1 rs2 : RegIdx) (s : State) : Host.Outcome State Fault Refusal := aluReg .sltu rd rs1 rs2 s

/-- R457: `xor rd, rs1, rs2`. -/
def execXor (rd rs1 rs2 : RegIdx) (s : State) : Host.Outcome State Fault Refusal := aluReg .xor rd rs1 rs2 s

/-- R458: `srl rd, rs1, rs2`. -/
def execSrl (rd rs1 rs2 : RegIdx) (s : State) : Host.Outcome State Fault Refusal := aluReg .srl rd rs1 rs2 s

/-- R459: `sra rd, rs1, rs2`. -/
def execSra (rd rs1 rs2 : RegIdx) (s : State) : Host.Outcome State Fault Refusal := aluReg .sra rd rs1 rs2 s

/-- R460: `or rd, rs1, rs2`. -/
def execOr (rd rs1 rs2 : RegIdx) (s : State) : Host.Outcome State Fault Refusal := aluReg .or rd rs1 rs2 s

/-- R461: `and rd, rs1, rs2`. -/
def execAnd (rd rs1 rs2 : RegIdx) (s : State) : Host.Outcome State Fault Refusal := aluReg .and rd rs1 rs2 s

end Sys2Proof.Machine
end

