-- ==== Sys2Proof/Machine/Step.lean ====
section
/-! DEFINITION. One step of the engine (spec/40_execution_cycle.md R401), and how the host's question places a word
where the next step fetches it. -/

namespace Sys2Proof.Machine

/-- One step (R401): enabled only when `status = RUN` (R410); pc check and fetch (R402, R403), decode (R404), dispatch
(R405). A failing step takes its failure (R710). R408's force of `x0` has no effect here, since `State.readReg` and
`State.writeReg` hard-wire `x0` (log entry 10). -/
def step (s : State) : Host.Outcome State Fault Refusal :=
  match s.status with
  | .halted _ => .fault .halted
  | .run =>
    match s.fetch with
    | .error e => .next (s.raise e)
    | .ok w =>
      match decode w with
      | .error e => .next (s.raise (decodeFailure s.pc w e))
      | .ok i => exec i s

/-- The state itself if a step can fetch in it, else the same state with what the fetch needs: `status = RUN` and a pc
at the reset vector (log entry 12). -/
def State.readyToFetch (s : State) : State :=
  { s with
    pc := if s.pcInRange && (s.mem.ifetch s.pc).isSome then s.pc else State.reset.pc
    status := .run }

/-- `s` with the instruction whose bits are `w` placed at its pc, as the loader places a word (R144), so that the next
step runs it. From reset this is the program load of R210 with a one-word program. -/
def State.withFetchWord (s : State) (nbits w : Nat) : State :=
  let t := s.readyToFetch
  { t with mem := t.mem.write32 t.pc.toNat (tableWord nbits w) }

end Sys2Proof.Machine
end

