-- ==== Sys2Proof/Machine/Assembler.lean ====
section
/-! DEFINITION. The assembler, the reference toolchain outside the block (spec/00_scope.md R7; spec/30_encoding.md
R350 to R372; decisions D19, D25, D26, log entry 19). It turns text lines into instruction words and has no state. -/

namespace Sys2Proof.Machine

/-! ### Errors (R371, R372) -/

/-- The eight assembly-time errors (R371). -/
inductive AsmErrorKind where
  | unknownMnemonic
  | badOperandCount
  | badRegister
  | immediateOutOfRange
  | shiftAmountOutOfRange
  | badLoadSyntax
  | badJumpOffset
  | numericParseError
deriving DecidableEq, Repr

/-- An assembly-time error: its kind, the offending line's original text, and for `UnknownMnemonic` the supported set
(R372). -/
structure AsmError where
  kind : AsmErrorKind
  line : String
  supported : List String
deriving DecidableEq, Repr

/-! ### Tokens (R351) -/

/-- A character that separates tokens: white space or a comma (R351; log entry 17). -/
def isSeparator (c : Char) : Bool := c.isWhitespace || c == ','

/-- The tokens of a line: split at separators, empty tokens dropped (R351). -/
def tokens (line : List Char) : List (List Char) := (line.splitOnP isSeparator).filter fun t => !t.isEmpty

/-! ### Numbers and operands (R355, R357, R361) -/

/-- The value of a decimal digit (log entry 17). -/
def digitValue (c : Char) : Option Nat :=
  if '0' ≤ c ∧ c ≤ '9' then some (c.toNat - '0'.toNat) else none

/-- The digits of a number, most significant first, onto the value `acc` of those before. -/
def parseDigits (acc : Nat) : List Char → Option Nat
  | [] => some acc
  | c :: cs =>
    match digitValue c with
    | some d => parseDigits (10 * acc + d) cs
    | none => none

/-- An unsigned decimal integer: one or more digits. -/
def parseNat : List Char → Option Nat
  | [] => none
  | c :: cs => parseDigits 0 (c :: cs)

/-- A decimal integer: an optional `-`, then one or more digits (R355). -/
def parseInt : List Char → Option Int
  | '-' :: cs => (parseNat cs).map fun n => -(n : Int)
  | cs => (parseNat cs).map fun n => (n : Int)

/-- A numeric token, else NumericParseError (R355). -/
def numberOperand (t : List Char) : Except AsmErrorKind Int :=
  match parseInt t with
  | some v => .ok v
  | none => .error .numericParseError

/-- The register of that number, else BadRegister (R357). -/
def registerNumber (n : Nat) : Except AsmErrorKind RegIdx :=
  if h : n < 32 then .ok ⟨n, h⟩ else .error .badRegister

/-- A register token: `x`, then an unsigned integer in [0, 31]; else BadRegister (R357). -/
def registerOperand : List Char → Except AsmErrorKind RegIdx
  | 'x' :: ds =>
    match parseNat ds with
    | some n => registerNumber n
    | none => .error .badRegister
  | _ => .error .badRegister

/-- `v` is in [-2048, 2047] (R359, R361). -/
def immediateInRange (v : Int) : Bool := decide (-2048 ≤ v) && decide (v ≤ 2047)

/-- An I-type immediate: a number, then its range (R359). -/
def immediateOperand (t : List Char) : Except AsmErrorKind (BitVec 12) :=
  match numberOperand t with
  | .error e => .error e
  | .ok v => if immediateInRange v then .ok (BitVec.ofInt 12 v) else .error .immediateOutOfRange

/-- A shift amount: a number, then its range [0, 31] (R360). -/
def shiftOperand (t : List Char) : Except AsmErrorKind (BitVec 5) :=
  match numberOperand t with
  | .error e => .error e
  | .ok v => if 0 ≤ v ∧ v ≤ 31 then .ok (BitVec.ofInt 5 v) else .error .shiftAmountOutOfRange

/-- A jump offset: a number, then even and in [-1048576, 1048575] (R362, C9). Offsets that are 2 mod 4 are accepted
here and rejected by the engine (C2, D10). -/
def jumpOperand (t : List Char) : Except AsmErrorKind (BitVec 21) :=
  match numberOperand t with
  | .error e => .error e
  | .ok v =>
    if -1048576 ≤ v ∧ v ≤ 1048575 ∧ v % 2 = 0 then .ok (BitVec.ofInt 21 v) else .error .badJumpOffset

/-- The offset and base number of `offset(xN)`, a match of the whole token with `(-?\d+)\(x(\d+)\)` (R361; D26). -/
def matchLoadOperand (t : List Char) : Option (Int × Nat) :=
  match parseInt (t.takeWhile (· != '(')), t.dropWhile (· != '(') with
  | some v, '(' :: 'x' :: rest =>
    if rest.getLast? = some ')' then (parseNat rest.dropLast).map fun n => (v, n) else none
  | _, _ => none

/-- A load's address operand: form (BadLoadSyntax), base number (BadRegister), offset range (ImmediateOutOfRange)
(R361). Where both of the last two apply, which one is reported is a free value (log entry 18). -/
def loadOperand (t : List Char) : Except AsmErrorKind (RegIdx × BitVec 12) :=
  match matchLoadOperand t with
  | none => .error .badLoadSyntax
  | some (v, n) =>
    match registerNumber n, immediateInRange v with
    | .ok rs1, true => .ok (rs1, BitVec.ofInt 12 v)
    | .ok _, false => .error .immediateOutOfRange
    | .error e, true => .error e
    | .error e, false => .error (if Config.loadBaseErrorFirst then e else .immediateOutOfRange)

/-! ### Lines (R352 to R364) -/

/-- The operand syntaxes of R363, each with the instruction it makes. -/
inductive OperandForm where
  | reg3 (make : RegIdx → RegIdx → RegIdx → Instr)
  | regImm (make : RegIdx → RegIdx → BitVec 12 → Instr)
  | regShift (make : RegIdx → RegIdx → BitVec 5 → Instr)
  | load (make : RegIdx → RegIdx → BitVec 12 → Instr)
  | jump (make : RegIdx → BitVec 21 → Instr)

/-- The rows of the R-type mnemonics (R363). -/
def reg3Rows : List (String × OperandForm) :=
  [("add", .reg3 .add), ("sub", .reg3 .sub), ("sll", .reg3 .sll), ("slt", .reg3 .slt), ("sltu", .reg3 .sltu),
    ("xor", .reg3 .xor), ("srl", .reg3 .srl), ("sra", .reg3 .sra), ("or", .reg3 .or), ("and", .reg3 .and)]

/-- The rows of the I-type arithmetic mnemonics (R363). -/
def regImmRows : List (String × OperandForm) :=
  [("addi", .regImm .addi), ("slti", .regImm .slti), ("sltiu", .regImm .sltiu), ("xori", .regImm .xori),
    ("ori", .regImm .ori), ("andi", .regImm .andi)]

/-- The rows of the shift mnemonics (R363). -/
def regShiftRows : List (String × OperandForm) :=
  [("slli", .regShift .slli), ("srli", .regShift .srli), ("srai", .regShift .srai)]

/-- The rows of the load mnemonics (R363). -/
def loadRows : List (String × OperandForm) :=
  [("lb", .load .lb), ("lh", .load .lh), ("lw", .load .lw), ("lbu", .load .lbu), ("lhu", .load .lhu)]

/-- The row of `jal` (R363). -/
def jumpRows : List (String × OperandForm) := [("jal", .jump .jal)]

/-- The fixed table of the 25 mnemonics, lower case (R2, R352, R363). It holds no pseudo-instruction (R364). -/
def mnemonicTable : List (String × OperandForm) :=
  reg3Rows ++ (regImmRows ++ (regShiftRows ++ (loadRows ++ jumpRows)))

/-- The supported set that `UnknownMnemonic` names (R352, R372). -/
def supportedMnemonics : List String := mnemonicTable.map (·.1)

/-- The row of a mnemonic token; exact and case-sensitive (R352; D19). -/
def lookupMnemonic (t : List Char) : List (String × OperandForm) → Option OperandForm
  | [] => none
  | (name, form) :: rows => if name.toList = t then some form else lookupMnemonic t rows

/-- The instruction of an operand form and its tokens: first their number (R353), then each from left to right, the
first that fails giving the error (R356). -/
def parseOperands : OperandForm → List (List Char) → Except AsmErrorKind Instr
  | .reg3 make, [a, b, c] => do
    let rd ← registerOperand a
    let rs1 ← registerOperand b
    let rs2 ← registerOperand c
    return make rd rs1 rs2
  | .regImm make, [a, b, c] => do
    let rd ← registerOperand a
    let rs1 ← registerOperand b
    let imm ← immediateOperand c
    return make rd rs1 imm
  | .regShift make, [a, b, c] => do
    let rd ← registerOperand a
    let rs1 ← registerOperand b
    let shamt ← shiftOperand c
    return make rd rs1 shamt
  | .load make, [a, b] => do
    let rd ← registerOperand a
    let (rs1, imm) ← loadOperand b
    return make rd rs1 imm
  | .jump make, [a, b] => do
    let rd ← registerOperand a
    let offset ← jumpOperand b
    return make rd offset
  | .reg3 _, _ => .error .badOperandCount
  | .regImm _, _ => .error .badOperandCount
  | .regShift _, _ => .error .badOperandCount
  | .load _, _ => .error .badOperandCount
  | .jump _, _ => .error .badOperandCount

/-- The instruction of a line's tokens: none for a blank line (R351), then mnemonic, operand count, operands (R356). -/
def parseTokens : List (List Char) → Except AsmErrorKind (Option Instr)
  | [] => .ok none
  | m :: ops =>
    match lookupMnemonic m mnemonicTable with
    | none => .error .unknownMnemonic
    | some form => (parseOperands form ops).map some

/-- One line (R350, R351). Comments are not stripped (R354). -/
def parseLine (line : String) : Except AsmErrorKind (Option Instr) := parseTokens (tokens line.toList)

/-- The error record of a line (R372). -/
def asmError (kind : AsmErrorKind) (line : String) : AsmError where
  kind := kind
  line := line
  supported := if kind = .unknownMnemonic then supportedMnemonics else []

/-- `assemble(lines)`: one word per line that is not blank, in order, or the error of the first line that fails
(R350, R371). Word `k` of the output goes to `BASE + 4k` (R365), where `loadProgram` puts it. -/
def assemble : List String → Except AsmError (List Word)
  | [] => .ok []
  | line :: lines =>
    match parseLine line with
    | .error e => .error (asmError e line)
    | .ok none => assemble lines
    | .ok (some i) =>
      match assemble lines with
      | .error e => .error e
      | .ok ws => .ok (encode i :: ws)

/-! ### The text of an instruction (R358 to R363) -/

/-- The decimal digit of `n < 10`. -/
def digitChar (n : Nat) : Char := Char.ofNat ('0'.toNat + n)

/-- The decimal digits of `n`, most significant first; `fuel` bounds how many. -/
def decimalFuel : Nat → Nat → List Char
  | 0, _ => []
  | fuel + 1, n => if n < 10 then [digitChar n] else decimalFuel fuel (n / 10) ++ [digitChar (n % 10)]

/-- The decimal digits of `n`. -/
def decimal (n : Nat) : List Char := decimalFuel (n + 1) n

/-- A decimal integer as R355 reads it. -/
def decimalInt (v : Int) : List Char := if v < 0 then '-' :: decimal v.natAbs else decimal v.natAbs

/-- A register token (R357). -/
def registerText (r : RegIdx) : List Char := 'x' :: decimal r.val

/-- A load's address operand `offset(xN)` (R361). -/
def addressText (rs1 : RegIdx) (imm : BitVec 12) : List Char :=
  decimalInt imm.toInt ++ '(' :: registerText rs1 ++ [')']

/-- The tokens of an instruction in the syntax of R363. -/
def instrTokens : Instr → List (List Char)
  | .add rd rs1 rs2 => ["add".toList, registerText rd, registerText rs1, registerText rs2]
  | .sub rd rs1 rs2 => ["sub".toList, registerText rd, registerText rs1, registerText rs2]
  | .sll rd rs1 rs2 => ["sll".toList, registerText rd, registerText rs1, registerText rs2]
  | .slt rd rs1 rs2 => ["slt".toList, registerText rd, registerText rs1, registerText rs2]
  | .sltu rd rs1 rs2 => ["sltu".toList, registerText rd, registerText rs1, registerText rs2]
  | .xor rd rs1 rs2 => ["xor".toList, registerText rd, registerText rs1, registerText rs2]
  | .srl rd rs1 rs2 => ["srl".toList, registerText rd, registerText rs1, registerText rs2]
  | .sra rd rs1 rs2 => ["sra".toList, registerText rd, registerText rs1, registerText rs2]
  | .or rd rs1 rs2 => ["or".toList, registerText rd, registerText rs1, registerText rs2]
  | .and rd rs1 rs2 => ["and".toList, registerText rd, registerText rs1, registerText rs2]
  | .addi rd rs1 imm => ["addi".toList, registerText rd, registerText rs1, decimalInt imm.toInt]
  | .slti rd rs1 imm => ["slti".toList, registerText rd, registerText rs1, decimalInt imm.toInt]
  | .sltiu rd rs1 imm => ["sltiu".toList, registerText rd, registerText rs1, decimalInt imm.toInt]
  | .xori rd rs1 imm => ["xori".toList, registerText rd, registerText rs1, decimalInt imm.toInt]
  | .ori rd rs1 imm => ["ori".toList, registerText rd, registerText rs1, decimalInt imm.toInt]
  | .andi rd rs1 imm => ["andi".toList, registerText rd, registerText rs1, decimalInt imm.toInt]
  | .slli rd rs1 shamt => ["slli".toList, registerText rd, registerText rs1, decimal shamt.toNat]
  | .srli rd rs1 shamt => ["srli".toList, registerText rd, registerText rs1, decimal shamt.toNat]
  | .srai rd rs1 shamt => ["srai".toList, registerText rd, registerText rs1, decimal shamt.toNat]
  | .lb rd rs1 imm => ["lb".toList, registerText rd, addressText rs1 imm]
  | .lh rd rs1 imm => ["lh".toList, registerText rd, addressText rs1 imm]
  | .lw rd rs1 imm => ["lw".toList, registerText rd, addressText rs1 imm]
  | .lbu rd rs1 imm => ["lbu".toList, registerText rd, addressText rs1 imm]
  | .lhu rd rs1 imm => ["lhu".toList, registerText rd, addressText rs1 imm]
  | .jal rd offset => ["jal".toList, registerText rd, decimalInt offset.toInt]

/-- The tokens of a line joined by one space each. -/
def joinTokens : List (List Char) → List Char
  | [] => []
  | [t] => t
  | t :: u :: ts => t ++ ' ' :: joinTokens (u :: ts)

/-- The assembly text of an instruction. -/
def instrText (i : Instr) : String := String.ofList (joinTokens (instrTokens i))

end Sys2Proof.Machine
end

