-- ==== Sys2Proof/Machine/Loader.lean ====
section
/-! DEFINITION. The program loader (spec/10_state.md R144, spec/20_memory.md R210), a host operation used between
reset and the first step. -/

namespace Sys2Proof.Machine

/-- Why the host refuses to start a run. -/
inductive LoadError where
  /-- More than `MAX_WORDS` words: refused before the run, no step is taken (R210; D15, U16). Safe. -/
  | programTooLong
deriving DecidableEq, Repr

/-- Write the words from address `a` upward, 4 bytes apart, in order (R144). -/
def Memory.loadWords (a : Nat) : List Word → Memory → Memory
  | [], m => m
  | w :: ws, m => Memory.loadWords (a + 4) ws (m.write32 a w)

/-- `Load(words)`: word `k` at `BASE + 4k`; bytes the program does not cover keep their value (R210). -/
def loadProgram (words : List Word) (s : State) : Except LoadError State :=
  if words.length ≤ Config.maxWords then .ok { s with mem := s.mem.loadWords Config.base words }
  else .error .programTooLong

end Sys2Proof.Machine
end

