-- ==== Sys2Proof/Machine/Run.lean ====
section
/-! DEFINITION. A run and what the host sees of it (spec/10_state.md R140, spec/40_execution_cycle.md R420 to R425,
spec/70_reset_and_hazards.md R810). The budget belongs to the host and is an argument everywhere (D14). -/

namespace Sys2Proof.Machine

/-- `run_steps(N)`: up to `n` steps, stopping when the status is not `RUN` (R420). Running out of budget is no error
(R421). -/
def runSteps : Nat → State → State
  | 0, s => s
  | n + 1, s =>
    match s.status with
    | .halted _ => s
    | .run =>
      match step s with
      | .next t => runSteps n t
      | .fault _ => s
      | .refused _ => s

/-- A run of `n` steps of a program: reset, load, steps (R140, R420). -/
def runProgram (n : Nat) (words : List Word) : Except LoadError State :=
  (loadProgram words State.reset).map (runSteps n)

/-- The entry point `step(program)`: a run with `N = 1` (R422). -/
def stepEntry (words : List Word) : Except LoadError State := runProgram 1 words

/-- The entry point `run(program)`: a run with `N = RUN_BUDGET(program)`, the OPEN parameter of R422, taken as an
argument (U3, D14). -/
def runEntry (runBudget : List Word → Nat) (words : List Word) : Except LoadError State :=
  runProgram (runBudget words) words

/-- The spec's reading of `RUN_BUDGET`, the number of words of the program (R9, R422). -/
def wordCountBudget (words : List Word) : Nat := words.length

/-- What the host reads after a run: all of `x`, `pc`, any byte of memory, and the error if there is one (R140; the
`memory_window` of the source is all of memory, D21). -/
structure RunResult where
  registers : List Word
  pc : Word
  memory : Memory
  error? : Option ExecError
deriving DecidableEq, Repr

/-- `Observe` (R140). -/
def observe (s : State) : RunResult where
  registers := (List.finRange 32).map s.readReg
  pc := s.pc
  memory := s.mem
  error? := s.status.error?

/-- Why a submitted program text gives no run: it does not assemble (R372), or it is too long (R210). -/
inductive SubmitError where
  | assembly (e : AsmError)
  | loading (e : LoadError)
deriving DecidableEq, Repr

/-- The start-up order of R810: assemble, reset, load, request `n` steps; then observe. -/
def submit (n : Nat) (lines : List String) : Except SubmitError RunResult :=
  match assemble lines with
  | .error e => .error (.assembly e)
  | .ok words =>
    match runProgram n words with
    | .error e => .error (.loading e)
    | .ok s => .ok (observe s)

end Sys2Proof.Machine
end

