-- ==== Sys2Proof/Safety.lean ====
section
/-! DEFINITION. What a sound state of the engine is, which states a run reaches, and the terms claims are stated in. -/

namespace Sys2Proof.Machine

/-- The diagnostic of an error agrees with the state that raised it: it records the pc of the failing step (R710, R711),
the error is not `InvalidMemoryAccess` (R222: unreachable with an aligned pc), and a recorded word is the word at the
pc (R711). -/
def ErrorMatches (s : State) (e : ExecError) : Prop :=
  e.info.pc = s.pc ∧ e.kind ≠ .invalidMemoryAccess ∧ ∀ pc w, e.info = .atWord pc w → w = s.mem.read32 s.pc.toNat

/-- The invariant of the engine: `x0`'s slot is 0 (R102, R408), the pc is a multiple of 4 (R114), memory is in its
canonical form, and a halted status tells the truth about the state it halted in. -/
structure Inv (s : State) : Prop where
  x0_zero : s.x[(0 : RegIdx)] = 0#32
  pc_aligned : s.pc.toNat % 4 = 0
  mem_wf : s.mem.wf = true
  halt_truth : ∀ e, s.status = .halted e → ErrorMatches s e

/-- The states of the runs of a loaded program, after any number of steps (R140, R420). -/
inductive Reachable (words : List Word) : State → Prop where
  | start {s : State} : loadProgram words State.reset = .ok s → Reachable words s
  | step {s t : State} : Reachable words s → step s = .next t → Reachable words t

/-- `t` is `s` after a successful instruction: `x[rd] <- v` (discarded when `rd = 0`), `pc <- target`, and every other
register, every byte of memory and the status as before (R103, R406). -/
structure Writes (s t : State) (rd : RegIdx) (v target : Word) : Prop where
  result : t.readReg rd = if rd = 0 then 0#32 else v
  others : ∀ r : RegIdx, r ≠ rd → t.readReg r = s.readReg r
  pc : t.pc = target
  bytes : ∀ a : Nat, t.mem.read a = s.mem.read a
  status : t.status = s.status

/-- `t` is `s` after a step that raised `e`: the status says so, and every register, the pc and every byte of memory
are as before (R407, R710). -/
structure HaltsWith (s t : State) (e : ExecError) : Prop where
  status : t.status = .halted e
  regs : ∀ r : RegIdx, t.readReg r = s.readReg r
  pc : t.pc = s.pc
  bytes : ∀ a : Nat, t.mem.read a = s.mem.read a

/-! ### Terms taken straight from the spec's text, without the decoder -/

/-- `opcode` as a number: `w[6:0]` (R311). -/
abbrev opcodeNat (w : Word) : Nat := w.toNat % 2 ^ 7

/-- `funct3` as a number: `w[14:12]` (R313). -/
abbrev funct3Nat (w : Word) : Nat := w.toNat / 2 ^ 12 % 2 ^ 3

/-- `funct7` as a number: `w[31:25]` (R316). -/
abbrev funct7Nat (w : Word) : Nat := w.toNat / 2 ^ 25

/-- The funct3 values that select no load (R333; D6). -/
abbrev BadLoadFunct3 (w : Word) : Prop := funct3Nat w = 3 ∨ funct3Nat w = 6 ∨ funct3Nat w = 7

/-- The funct7 values that the tables of R331 and R332 do not admit (R342; D4, D5). -/
abbrev BadFunct7 (w : Word) : Prop :=
  (opcodeNat w = 0x33 ∧ funct7Nat w ≠ 0x00 ∧ ¬(funct7Nat w = 0x20 ∧ (funct3Nat w = 0 ∨ funct3Nat w = 5))) ∨
    (opcodeNat w = 0x13 ∧ funct3Nat w = 1 ∧ funct7Nat w ≠ 0x00) ∨
    (opcodeNat w = 0x13 ∧ funct3Nat w = 5 ∧ funct7Nat w ≠ 0x00 ∧ funct7Nat w ≠ 0x20)

/-- The effective address of a load with base value `b` and offset pattern `imm`: `u32(b + signed(imm))` (R551; D7). -/
def loadAddress (b : Word) (imm : BitVec 12) : Word := BitVec.ofInt 32 (b.toNat + imm.toInt)

/-- The effective address of the load word `w` in state `s`. -/
def wordLoadAddress (s : State) (w : Word) : Word :=
  loadAddress (s.readReg (Fin.ofNat 32 (w.toNat / 2 ^ 15))) (BitVec.ofNat 12 (w.toNat / 2 ^ 20))

/-- The width in bytes of the load that `w` selects (R333). -/
def loadWidth (w : Word) : Nat :=
  if funct3Nat w = 0 ∨ funct3Nat w = 4 then 1 else if funct3Nat w = 1 ∨ funct3Nat w = 5 then 2 else 4

/-- The failure of the step that starts in `s`, if any: the first test that fails, in the order of R720. -/
def FailsWith (s : State) (e : ExecError) : Prop :=
  let w := s.mem.read32 s.pc.toNat
  let ea := wordLoadAddress s w
  if s.pc.toNat < 0x1000 ∨ 0x10000 ≤ s.pc.toNat then e = .pcOutOfBounds s.pc
  else if 0x10000 < s.pc.toNat + 4 then e = .invalidMemoryAccess s.pc
  else if opcodeNat w ≠ 0x33 ∧ opcodeNat w ≠ 0x13 ∧ opcodeNat w ≠ 0x03 ∧ opcodeNat w ≠ 0x6F then
    e = .unknownOpcode s.pc w
  else if opcodeNat w = 0x03 ∧ BadLoadFunct3 w then e = .unknownFunct3 s.pc w
  else if BadFunct7 w then e = .invalidFunct7 s.pc w
  else if opcodeNat w = 0x03 ∧ (0x10000 < ea.toNat + loadWidth w ∨ ea.toNat % loadWidth w ≠ 0) then
    e = .invalidMemoryAddress s.pc ea
  else opcodeNat w = 0x6F ∧ w.getLsbD 21 = true ∧ e = .unalignedJump s.pc w

end Sys2Proof.Machine
end

