-- ==== Sys2Proof/Certificates/Slice0/Obligations.lean ====
section
/-! DEFINITION. The statements for the provers. Each docstring names the rules of spec/ it formalises; where a clause
rests on a decision of the spec (92_eei_decisions.md), on a rule the spec marks as derived, or on the spec's
general-knowledge funct3 values (93_implementation_defined.md G1), it says so. -/

open Sys2Proof Sys2Proof.Machine

/-! ### Reset and loading -/

/-- R802, with R105 and R112: every value after reset, and after reset and `Load(words)`. The length bound is the
loader's capacity (R210, D15). -/
def Obligations.ResetAndLoadedValues : Prop :=
  (∀ r, State.reset.readReg r = 0#32) ∧ State.reset.pc = 0x1000#32 ∧ State.reset.status = .run ∧
    (∀ a < 0x10000, State.reset.mem.read a = 0#8) ∧
    ∀ words : List Word, words.length ≤ 15360 → ∃ s, loadProgram words State.reset = .ok s ∧
      (∀ r, s.readReg r = 0#32) ∧ s.pc = 0x1000#32 ∧ s.status = .run ∧
      (∀ a < 0x1000, s.mem.read a = 0#8) ∧
      (∀ a, 0x1000 ≤ a → ∀ h : (a - 0x1000) / 4 < words.length,
        (s.mem.read a).toNat = (words[(a - 0x1000) / 4]'h).toNat / 2 ^ (8 * ((a - 0x1000) % 4)) % 2 ^ 8) ∧
      (∀ a, 0x1000 + 4 * words.length ≤ a → a < 0x10000 → s.mem.read a = 0#8)

/-- R210 with D15 (the spec's decision): a program of more than 15360 words is refused before the run. -/
def Obligations.OverlongProgramIsRefused : Prop :=
  ∀ (words : List Word) (s : State), 15360 < words.length → loadProgram words s = .error .programTooLong

/-! ### Registers and memory -/

/-- R102, R103, R145 (R103 is marked derived, R145 rests on D18): what a register reads after a register write. -/
def Obligations.RegisterWriteThenRead : Prop :=
  ∀ (s : State) (r q : RegIdx) (v : Word),
    s.readReg 0 = 0#32 ∧ (s.writeReg r v).readReg q = if q = 0 then 0#32 else if q = r then v else s.readReg q

/-- R201: the byte at the lowest address is the least significant, for the reads of 2 and 4 bytes, for the fetch, for the
multi-byte loads, which read through them, and for the loader's write of a word. -/
def Obligations.MultiByteReadsAreLittleEndian : Prop :=
  ∀ (m : Memory) (a : Nat),
    (m.read16 a).toNat = (m.read a).toNat + 2 ^ 8 * (m.read (a + 1)).toNat ∧
      (m.read32 a).toNat = (m.read a).toNat + 2 ^ 8 * (m.read (a + 1)).toNat + 2 ^ 16 * (m.read (a + 2)).toNat +
        2 ^ 24 * (m.read (a + 3)).toNat ∧
      (∀ s : State, s.mem = m → s.pc.toNat = a → 0x1000 ≤ a → a + 4 ≤ 0x10000 → s.fetch = .ok (m.read32 a)) ∧
      (∀ (s : State) (rd rs1 : RegIdx) (imm : BitVec 12), s.mem = m → (effectiveAddress s rs1 imm).toNat = a →
        (a % 4 = 0 → a + 4 ≤ 0x10000 → exec (.lw rd rs1 imm) s = .next (s.retire rd (m.read32 a))) ∧
        (a % 2 = 0 → a + 2 ≤ 0x10000 → exec (.lh rd rs1 imm) s = .next (s.retire rd (sext (m.read16 a))) ∧
          exec (.lhu rd rs1 imm) s = .next (s.retire rd (zext (m.read16 a))))) ∧
      ∀ w : Word, m.wf = true → a + 4 ≤ 0x10000 →
        ∀ k < 4, ((m.write32 a w).read (a + k)).toNat = w.toNat / 2 ^ (8 * k) % 2 ^ 8

/-- R202 (marked derived): the narrower reads of a word written as a unit. -/
def Obligations.NarrowReadsOfAStoredWord : Prop :=
  ∀ (m : Memory) (a : Nat) (w : Word), m.wf = true → a + 4 ≤ 0x10000 →
    (∀ k < 4, ((m.write32 a w).read (a + k)).toNat = w.toNat / 2 ^ (8 * k) % 2 ^ 8) ∧
      ((m.write32 a w).read16 a).toNat = w.toNat % 2 ^ 16 ∧
      ((m.write32 a w).read16 (a + 2)).toNat = w.toNat / 2 ^ 16 ∧
      (m.write32 a w).read32 a = w ∧
      ∀ b, (b < a ∨ a + 4 ≤ b) → (m.write32 a w).read b = m.read b

/-- The model's canonical form (log entry 11), over the bytes of R130: a canonical memory is fixed by what it reads. -/
def Obligations.CanonicalMemoryIsFixedByItsBytes : Prop :=
  ∀ m m' : Memory, m.wf = true → m'.wf = true → (∀ a < 0x10000, m.read a = m'.read a) → m = m'

/-! ### Encoding -/

/-- R311 to R317 and R319: the decoder's fields of every word. -/
def Obligations.DecoderExtractsFields : Prop :=
  ∀ w : Word,
    (fieldsOf w).opcode.toNat = w.toNat % 2 ^ 7 ∧
      (fieldsOf w).rd.val = w.toNat / 2 ^ 7 % 2 ^ 5 ∧
      (fieldsOf w).funct3.toNat = w.toNat / 2 ^ 12 % 2 ^ 3 ∧
      (fieldsOf w).rs1.val = w.toNat / 2 ^ 15 % 2 ^ 5 ∧
      (fieldsOf w).rs2.val = w.toNat / 2 ^ 20 % 2 ^ 5 ∧
      (fieldsOf w).funct7.toNat = w.toNat / 2 ^ 25 ∧
      (fieldsOf w).imm = ((w >>> 20) <<< 20).sshiftRight 20 ∧
      (fieldsOf w).imm = (w.extractLsb' 20 12).signExtend 32 ∧
      (-2048 ≤ (fieldsOf w).imm.toInt ∧ (fieldsOf w).imm.toInt ≤ 2047) ∧
      (w.toNat / 2 ^ 20 = 0x7FF → (fieldsOf w).imm = 0x000007FF#32) ∧
      (w.toNat / 2 ^ 20 = 0x800 → (fieldsOf w).imm = 0xFFFFF800#32) ∧
      (w.toNat / 2 ^ 20 = 0xFFF → (fieldsOf w).imm = 0xFFFFFFFF#32) ∧
      (fieldsOf w).jimm.getLsbD 0 = false ∧
      (∀ i, 1 ≤ i → i ≤ 10 → (fieldsOf w).jimm.getLsbD i = w.getLsbD (i + 20)) ∧
      (fieldsOf w).jimm.getLsbD 11 = w.getLsbD 20 ∧
      (∀ i, 12 ≤ i → i ≤ 19 → (fieldsOf w).jimm.getLsbD i = w.getLsbD i) ∧
      (∀ i, 20 ≤ i → i ≤ 31 → (fieldsOf w).jimm.getLsbD i = w.getLsbD 31)

/-- R320 (marked derived): the jump offset is even, in its range, and a multiple of 4 exactly when `w[21] = 0`. -/
def Obligations.JumpOffsetIsEvenAndBounded : Prop :=
  ∀ w : Word,
    (fieldsOf w).jimm.toInt % 2 = 0 ∧ -1048576 ≤ (fieldsOf w).jimm.toInt ∧ (fieldsOf w).jimm.toInt ≤ 1048574 ∧
      ((fieldsOf w).jimm.toInt % 4 = 0 ↔ w.getLsbD 21 = false)

/-- R303 to R306 with the funct3 values of G1: no bit of an encoding is dropped. -/
def Obligations.DecodeOfEncodeIsTheInstruction : Prop :=
  ∀ i : Instr, i.wellFormed = true → decode (encode i) = .ok i

/-- R344 (marked derived): a legal word has no bit that its instruction does not carry. -/
def Obligations.EncodeOfDecodeIsTheWord : Prop :=
  ∀ (w : Word) (i : Instr), decode w = .ok i → i.wellFormed = true ∧ encode i = w

/-- R340: every other opcode raises UnknownOpcode, when decoded and when a step fetches it; the words the rule lists are
among them. -/
def Obligations.OtherOpcodesRaiseUnknownOpcode : Prop :=
  (∀ w : Word, w.toNat % 2 ^ 7 ≠ 0x33 → w.toNat % 2 ^ 7 ≠ 0x13 → w.toNat % 2 ^ 7 ≠ 0x03 → w.toNat % 2 ^ 7 ≠ 0x6F →
    decode w = .error .unknownOpcode ∧
      ∀ s : State, s.status = .run → 0x1000 ≤ s.pc.toNat → s.pc.toNat + 4 ≤ 0x10000 →
        s.mem.read32 s.pc.toNat = w → ∃ t, step s = .next t ∧ HaltsWith s t (.unknownOpcode s.pc w)) ∧
    (∀ w : Word, w.toNat % 2 ^ 7 ∈ [0x37, 0x17, 0x67, 0x63, 0x23, 0x0F, 0x73] → decode w = .error .unknownOpcode) ∧
    decode 0x00000000#32 = .error .unknownOpcode ∧ decode 0xFFFFFFFF#32 = .error .unknownOpcode ∧
    ∀ w : Word, w.toNat % 4 ≠ 3 → decode w = .error .unknownOpcode

/-- R331 to R333, R340 to R342, R345 (D4, D5, D6, D29 and G1): which words fail to decode, and with which verdict. -/
def Obligations.DecodeVerdicts : Prop :=
  ∀ w : Word,
    (decode w = .error .unknownFunct3 ↔ opcodeNat w = 0x03 ∧ BadLoadFunct3 w) ∧
      (decode w = .error .invalidFunct7 ↔ BadFunct7 w) ∧
      (decode w = .error .unknownOpcode ↔
        opcodeNat w ≠ 0x33 ∧ opcodeNat w ≠ 0x13 ∧ opcodeNat w ≠ 0x03 ∧ opcodeNat w ≠ 0x6F)

/-- R334: every word with opcode 0x6F is a `jal`, whatever its other bits. -/
def Obligations.EveryWordWithOpcode6FIsJal : Prop :=
  ∀ w : Word, w.toNat % 2 ^ 7 = 0x6F → ∃ rd offset, decode w = .ok (.jal rd offset)

/-- spec/opcode_table.json (funct3 values of G1): the R-type and shift-immediate rows, with their operands. -/
def Obligations.FunctRowsDecode : Prop :=
  ∀ w : Word, let f := fieldsOf w
    (w &&& 0xFE00707F#32 = 0x00000033#32 → decode w = .ok (.add f.rd f.rs1 f.rs2)) ∧
      (w &&& 0xFE00707F#32 = 0x40000033#32 → decode w = .ok (.sub f.rd f.rs1 f.rs2)) ∧
      (w &&& 0xFE00707F#32 = 0x00001033#32 → decode w = .ok (.sll f.rd f.rs1 f.rs2)) ∧
      (w &&& 0xFE00707F#32 = 0x00002033#32 → decode w = .ok (.slt f.rd f.rs1 f.rs2)) ∧
      (w &&& 0xFE00707F#32 = 0x00003033#32 → decode w = .ok (.sltu f.rd f.rs1 f.rs2)) ∧
      (w &&& 0xFE00707F#32 = 0x00004033#32 → decode w = .ok (.xor f.rd f.rs1 f.rs2)) ∧
      (w &&& 0xFE00707F#32 = 0x00005033#32 → decode w = .ok (.srl f.rd f.rs1 f.rs2)) ∧
      (w &&& 0xFE00707F#32 = 0x40005033#32 → decode w = .ok (.sra f.rd f.rs1 f.rs2)) ∧
      (w &&& 0xFE00707F#32 = 0x00006033#32 → decode w = .ok (.or f.rd f.rs1 f.rs2)) ∧
      (w &&& 0xFE00707F#32 = 0x00007033#32 → decode w = .ok (.and f.rd f.rs1 f.rs2)) ∧
      (w &&& 0xFE00707F#32 = 0x00001013#32 → decode w = .ok (.slli f.rd f.rs1 f.shamt)) ∧
      (w &&& 0xFE00707F#32 = 0x00005013#32 → decode w = .ok (.srli f.rd f.rs1 f.shamt)) ∧
      (w &&& 0xFE00707F#32 = 0x40005013#32 → decode w = .ok (.srai f.rd f.rs1 f.shamt))

/-- spec/opcode_table.json (funct3 values of G1): the I-type, load and J-type rows, with their operands. -/
def Obligations.ImmediateRowsDecode : Prop :=
  ∀ w : Word, let f := fieldsOf w
    (w &&& 0x0000707F#32 = 0x00000013#32 → decode w = .ok (.addi f.rd f.rs1 f.immBits)) ∧
      (w &&& 0x0000707F#32 = 0x00002013#32 → decode w = .ok (.slti f.rd f.rs1 f.immBits)) ∧
      (w &&& 0x0000707F#32 = 0x00003013#32 → decode w = .ok (.sltiu f.rd f.rs1 f.immBits)) ∧
      (w &&& 0x0000707F#32 = 0x00004013#32 → decode w = .ok (.xori f.rd f.rs1 f.immBits)) ∧
      (w &&& 0x0000707F#32 = 0x00006013#32 → decode w = .ok (.ori f.rd f.rs1 f.immBits)) ∧
      (w &&& 0x0000707F#32 = 0x00007013#32 → decode w = .ok (.andi f.rd f.rs1 f.immBits)) ∧
      (w &&& 0x0000707F#32 = 0x00000003#32 → decode w = .ok (.lb f.rd f.rs1 f.immBits)) ∧
      (w &&& 0x0000707F#32 = 0x00001003#32 → decode w = .ok (.lh f.rd f.rs1 f.immBits)) ∧
      (w &&& 0x0000707F#32 = 0x00002003#32 → decode w = .ok (.lw f.rd f.rs1 f.immBits)) ∧
      (w &&& 0x0000707F#32 = 0x00004003#32 → decode w = .ok (.lbu f.rd f.rs1 f.immBits)) ∧
      (w &&& 0x0000707F#32 = 0x00005003#32 → decode w = .ok (.lhu f.rd f.rs1 f.immBits)) ∧
      (w &&& 0x0000007F#32 = 0x0000006F#32 → decode w = .ok (.jal f.rd f.jimmBits))

/-- Words written out from the formats of R303 to R306 (fields apart), the examples of R358 to R362. -/
def Obligations.WrittenOutWordsDecode : Prop :=
  decode 0b0000000_00010_00001_000_00011_0110011#32 = .ok (.add 3 1 2) ∧
    decode 0b0100000_00010_00001_000_00011_0110011#32 = .ok (.sub 3 1 2) ∧
    decode 0b000000000101_00000_000_00001_0010011#32 = .ok (.addi 1 0 5#12) ∧
    decode 0b0100000_00100_00001_101_00001_0010011#32 = .ok (.srai 1 1 4#5) ∧
    decode 0b000000000001_00000_010_00001_0000011#32 = .ok (.lw 1 0 1#12) ∧
    decode 0b1_1111111110_1_11111111_00000_1101111#32 = .ok (.jal 0 (-4#21))

/-! ### Register-register instructions (41_register_alu.md; funct3 values and D5 concern their words only) -/

/-- R452, R453: `add` and `sub` complete in every state with the sum and difference modulo 2^32. -/
def Obligations.AddSubWriteSumAndDifference : Prop :=
  ∀ (s : State) (rd rs1 rs2 : RegIdx), let a := (s.readReg rs1).toNat; let b := (s.readReg rs2).toNat
    (∃ t, exec (.add rd rs1 rs2) s = .next t ∧ Writes s t rd (BitVec.ofNat 32 (a + b)) (s.pc + 4#32)) ∧
      (∃ t, exec (.sub rd rs1 rs2) s = .next t ∧ Writes s t rd (BitVec.ofInt 32 ((a : Int) - b)) (s.pc + 4#32))

/-- R454, R458, R459: the register shifts complete in every state; the amount is `x[rs2] mod 32`. -/
def Obligations.RegisterShiftsUseLowFiveBits : Prop :=
  ∀ (s : State) (rd rs1 rs2 : RegIdx), let a := s.readReg rs1; let n := (s.readReg rs2).toNat % 32
    (∃ t, exec (.sll rd rs1 rs2) s = .next t ∧ Writes s t rd (BitVec.ofNat 32 (a.toNat * 2 ^ n)) (s.pc + 4#32)) ∧
      (∃ t, exec (.srl rd rs1 rs2) s = .next t ∧ Writes s t rd (BitVec.ofNat 32 (a.toNat / 2 ^ n)) (s.pc + 4#32)) ∧
      (∃ t, exec (.sra rd rs1 rs2) s = .next t ∧ Writes s t rd (BitVec.ofInt 32 (a.toInt / 2 ^ n)) (s.pc + 4#32))

/-- R455, R456: `slt` compares signed, `sltu` unsigned; both complete in every state with 1 or 0. -/
def Obligations.RegisterComparesWriteOneOrZero : Prop :=
  ∀ (s : State) (rd rs1 rs2 : RegIdx), let a := s.readReg rs1; let b := s.readReg rs2
    (∃ t, exec (.slt rd rs1 rs2) s = .next t ∧
        Writes s t rd (if a.toInt < b.toInt then 1#32 else 0#32) (s.pc + 4#32)) ∧
      (∃ t, exec (.sltu rd rs1 rs2) s = .next t ∧
        Writes s t rd (if a.toNat < b.toNat then 1#32 else 0#32) (s.pc + 4#32))

/-- R457, R460, R461: the bitwise operations complete in every state. -/
def Obligations.RegisterLogicIsBitwise : Prop :=
  ∀ (s : State) (rd rs1 rs2 : RegIdx), let a := s.readReg rs1; let b := s.readReg rs2
    (∃ t, exec (.xor rd rs1 rs2) s = .next t ∧ Writes s t rd (a ^^^ b) (s.pc + 4#32)) ∧
      (∃ t, exec (.or rd rs1 rs2) s = .next t ∧ Writes s t rd (a ||| b) (s.pc + 4#32)) ∧
      (∃ t, exec (.and rd rs1 rs2) s = .next t ∧ Writes s t rd (a &&& b) (s.pc + 4#32))

/-! ### Register-immediate instructions (42_immediate_alu.md) -/

/-- R502: `addi` completes in every state with the sum of the register and the signed immediate, modulo 2^32. -/
def Obligations.AddImmediateWritesSum : Prop :=
  ∀ (s : State) (rd rs1 : RegIdx) (imm : BitVec 12), ∃ t, exec (.addi rd rs1 imm) s = .next t ∧
    Writes s t rd (BitVec.ofInt 32 ((s.readReg rs1).toNat + imm.toInt)) (s.pc + 4#32)

/-- R503, R504: `slti` compares with the signed immediate, `sltiu` with its 32-bit pattern read as unsigned (D8, the
spec's decision); both complete in every state. -/
def Obligations.ImmediateComparesWriteOneOrZero : Prop :=
  ∀ (s : State) (rd rs1 : RegIdx) (imm : BitVec 12), let a := s.readReg rs1
    (∃ t, exec (.slti rd rs1 imm) s = .next t ∧
        Writes s t rd (if a.toInt < imm.toInt then 1#32 else 0#32) (s.pc + 4#32)) ∧
      (∃ t, exec (.sltiu rd rs1 imm) s = .next t ∧
        Writes s t rd (if (a.toNat : Int) < imm.toInt % 2 ^ 32 then 1#32 else 0#32) (s.pc + 4#32))

/-- R505 to R507 (D8, the spec's decision): the bitwise operations with the sign-extended immediate complete in every
state. -/
def Obligations.ImmediateLogicIsBitwise : Prop :=
  ∀ (s : State) (rd rs1 : RegIdx) (imm : BitVec 12), let a := s.readReg rs1; let b := BitVec.ofInt 32 imm.toInt
    (∃ t, exec (.xori rd rs1 imm) s = .next t ∧ Writes s t rd (a ^^^ b) (s.pc + 4#32)) ∧
      (∃ t, exec (.ori rd rs1 imm) s = .next t ∧ Writes s t rd (a ||| b) (s.pc + 4#32)) ∧
      (∃ t, exec (.andi rd rs1 imm) s = .next t ∧ Writes s t rd (a &&& b) (s.pc + 4#32))

/-- R521 to R523 (D3, D4 concern their words): the immediate shifts complete in every state. -/
def Obligations.ImmediateShiftsShiftByShamt : Prop :=
  ∀ (s : State) (rd rs1 : RegIdx) (shamt : BitVec 5), let a := s.readReg rs1; let n := shamt.toNat
    (∃ t, exec (.slli rd rs1 shamt) s = .next t ∧ Writes s t rd (BitVec.ofNat 32 (a.toNat * 2 ^ n)) (s.pc + 4#32)) ∧
      (∃ t, exec (.srli rd rs1 shamt) s = .next t ∧
        Writes s t rd (BitVec.ofNat 32 (a.toNat / 2 ^ n)) (s.pc + 4#32)) ∧
      (∃ t, exec (.srai rd rs1 shamt) s = .next t ∧ Writes s t rd (BitVec.ofInt 32 (a.toInt / 2 ^ n)) (s.pc + 4#32))

/-! ### Loads (43_loads.md; the address sum wraps by D7, the bounds test is D24's, `rd = 0` is checked by D20) -/

/-- R560, R563 with R551, R552: the byte loads complete for every address in memory and fail beyond it. -/
def Obligations.ByteLoadsReadOneByte : Prop :=
  ∀ (s : State) (rd rs1 : RegIdx) (imm : BitVec 12), let ea := loadAddress (s.readReg rs1) imm
    (ea.toNat < 0x10000 →
      (∃ t, exec (.lb rd rs1 imm) s = .next t ∧
        Writes s t rd (BitVec.ofInt 32 (s.mem.read ea.toNat).toInt) (s.pc + 4#32)) ∧
      (∃ t, exec (.lbu rd rs1 imm) s = .next t ∧
        Writes s t rd (BitVec.ofNat 32 (s.mem.read ea.toNat).toNat) (s.pc + 4#32))) ∧
    (0x10000 ≤ ea.toNat →
      (∃ t, exec (.lb rd rs1 imm) s = .next t ∧ HaltsWith s t (.invalidMemoryAddress s.pc ea)) ∧
      (∃ t, exec (.lbu rd rs1 imm) s = .next t ∧ HaltsWith s t (.invalidMemoryAddress s.pc ea)))

/-- R561, R564 with R551, R552: the halfword loads complete for every even address in memory and fail for every other;
the halfword's value is little-endian (R201). -/
def Obligations.HalfwordLoadsReadTwoBytes : Prop :=
  ∀ (s : State) (rd rs1 : RegIdx) (imm : BitVec 12), let ea := loadAddress (s.readReg rs1) imm
    let n : Nat := (s.mem.read ea.toNat).toNat + 2 ^ 8 * (s.mem.read (ea.toNat + 1)).toNat
    (ea.toNat < 0x10000 ∧ ea.toNat % 2 = 0 →
      (∃ t, exec (.lh rd rs1 imm) s = .next t ∧
        Writes s t rd (BitVec.ofInt 32 (if n < 0x8000 then (n : Int) else n - 0x10000)) (s.pc + 4#32)) ∧
      (∃ t, exec (.lhu rd rs1 imm) s = .next t ∧ Writes s t rd (BitVec.ofNat 32 n) (s.pc + 4#32))) ∧
    (0x10000 ≤ ea.toNat ∨ ea.toNat % 2 ≠ 0 →
      (∃ t, exec (.lh rd rs1 imm) s = .next t ∧ HaltsWith s t (.invalidMemoryAddress s.pc ea)) ∧
      (∃ t, exec (.lhu rd rs1 imm) s = .next t ∧ HaltsWith s t (.invalidMemoryAddress s.pc ea)))

/-- R562 with R551, R552: the word load completes for every address in memory that is a multiple of 4 and fails for
every other; the word's value is little-endian (R201). -/
def Obligations.WordLoadReadsFourBytes : Prop :=
  ∀ (s : State) (rd rs1 : RegIdx) (imm : BitVec 12), let ea := loadAddress (s.readReg rs1) imm
    let n : Nat := (s.mem.read ea.toNat).toNat + 2 ^ 8 * (s.mem.read (ea.toNat + 1)).toNat +
      2 ^ 16 * (s.mem.read (ea.toNat + 2)).toNat + 2 ^ 24 * (s.mem.read (ea.toNat + 3)).toNat
    (ea.toNat < 0x10000 ∧ ea.toNat % 4 = 0 →
      ∃ t, exec (.lw rd rs1 imm) s = .next t ∧ Writes s t rd (BitVec.ofNat 32 n) (s.pc + 4#32)) ∧
    (0x10000 ≤ ea.toNat ∨ ea.toNat % 4 ≠ 0 →
      ∃ t, exec (.lw rd rs1 imm) s = .next t ∧ HaltsWith s t (.invalidMemoryAddress s.pc ea))

/-- R220: the alignment each load needs, and the failure of a misaligned one, at whatever effective address the model's
own `effectiveAddress` gives (R551). -/
def Obligations.MisalignedLoadsFail : Prop :=
  ∀ (s : State) (rd rs1 : RegIdx) (imm : BitVec 12), let ea := effectiveAddress s rs1 imm
    (ea.toNat < 0x10000 → ∀ i ∈ [Instr.lb rd rs1 imm, .lbu rd rs1 imm],
      ∃ t, exec i s = .next t ∧ t.status = s.status) ∧
    (ea.toNat + 2 ≤ 0x10000 → ea.toNat % 2 = 0 → ∀ i ∈ [Instr.lh rd rs1 imm, .lhu rd rs1 imm],
      ∃ t, exec i s = .next t ∧ t.status = s.status) ∧
    (ea.toNat + 4 ≤ 0x10000 → ea.toNat % 4 = 0 → ∃ t, exec (.lw rd rs1 imm) s = .next t ∧ t.status = s.status) ∧
    (ea.toNat % 2 ≠ 0 → ∀ i ∈ [Instr.lh rd rs1 imm, .lhu rd rs1 imm],
      ∃ t, exec i s = .next t ∧ HaltsWith s t (.invalidMemoryAddress s.pc ea)) ∧
    (ea.toNat % 4 ≠ 0 → ∃ t, exec (.lw rd rs1 imm) s = .next t ∧ HaltsWith s t (.invalidMemoryAddress s.pc ea))

/-! ### The jump (44_jump.md; the target wraps by D9, the asymmetry is D10's, the link is settled by C1) -/

/-- R601 to R604: `jal` completes exactly when its offset is a multiple of 4; it links its own address and jumps
relative to it; else it fails before any write, recording its own word. -/
def Obligations.JalLinksItsOwnAddress : Prop :=
  ∀ (s : State) (rd : RegIdx) (offset : BitVec 21),
    (offset.toInt % 4 = 0 → ∃ t, exec (.jal rd offset) s = .next t ∧
      Writes s t rd s.pc (BitVec.ofInt 32 (s.pc.toNat + offset.toInt))) ∧
    (offset.toInt % 4 ≠ 0 → ∃ t, exec (.jal rd offset) s = .next t ∧
      HaltsWith s t (.unalignedJump s.pc (encode (.jal rd offset))))

/-- R605 (marked derived): a `jal` to a target outside `[0x1000, 0x10000)` succeeds, and the next step fails, leaving
the state as the `jal` left it, the link in `rd`. -/
def Obligations.OutOfRangeJumpFailsAtTheNextStep : Prop :=
  ∀ (s : State) (rd : RegIdx) (offset : BitVec 21), s.status = .run → 0x1000 ≤ s.pc.toNat →
    s.pc.toNat + 4 ≤ 0x10000 → decode (s.mem.read32 s.pc.toNat) = .ok (.jal rd offset) → offset.toInt % 4 = 0 →
    let target := BitVec.ofInt 32 (s.pc.toNat + offset.toInt)
    (target.toNat < 0x1000 ∨ 0x10000 ≤ target.toNat) →
    ∃ t u, step s = .next t ∧ t.status = .run ∧ t.pc = target ∧ step t = .next u ∧
      HaltsWith t u (.pcOutOfBounds target) ∧ u.readReg rd = if rd = 0 then 0#32 else s.pc

/-! ### Arithmetic laws -/

/-- R462: results wrap modulo 2^32 and signal nothing; the pattern is the same read signed or unsigned; `slt`, `slti`
read signed, `sltu`, `sltiu` unsigned; shift amounts are 0 to 31 and a shift never traps. -/
def Obligations.ArithmeticLaws : Prop :=
  ∀ (s : State) (rd rs1 rs2 : RegIdx) (imm : BitVec 12) (shamt : BitVec 5), rd ≠ 0 →
    let a := s.readReg rs1; let b := s.readReg rs2; let c := immValue imm
    (∃ t, exec (.add rd rs1 rs2) s = .next t ∧ t.status = s.status ∧
        (t.readReg rd).toNat = (a.toNat + b.toNat) % 2 ^ 32 ∧
        (t.readReg rd).toInt % 2 ^ 32 = (a.toInt + b.toInt) % 2 ^ 32) ∧
      (∃ t, exec (.sub rd rs1 rs2) s = .next t ∧ t.status = s.status ∧
        ((t.readReg rd).toNat : Int) = ((a.toNat : Int) - b.toNat) % 2 ^ 32 ∧
        (t.readReg rd).toInt % 2 ^ 32 = (a.toInt - b.toInt) % 2 ^ 32) ∧
      (∃ t, exec (.slt rd rs1 rs2) s = .next t ∧ (t.readReg rd = 1#32 ↔ a.toInt < b.toInt)) ∧
      (∃ t, exec (.slti rd rs1 imm) s = .next t ∧ (t.readReg rd = 1#32 ↔ a.toInt < c.toInt)) ∧
      (∃ t, exec (.sltu rd rs1 rs2) s = .next t ∧ (t.readReg rd = 1#32 ↔ a.toNat < b.toNat)) ∧
      (∃ t, exec (.sltiu rd rs1 imm) s = .next t ∧ (t.readReg rd = 1#32 ↔ a.toNat < c.toNat)) ∧
      (∀ i ∈ [Instr.sll rd rs1 rs2, .slli rd rs1 shamt], ∃ t, exec i s = .next t ∧ t.status = s.status ∧
        ∃ n ≤ 31, t.readReg rd = a <<< n) ∧
      (∀ i ∈ [Instr.srl rd rs1 rs2, .srli rd rs1 shamt], ∃ t, exec i s = .next t ∧ t.status = s.status ∧
        ∃ n ≤ 31, t.readReg rd = a >>> n) ∧
      (∀ i ∈ [Instr.sra rd rs1 rs2, .srai rd rs1 shamt], ∃ t, exec i s = .next t ∧ t.status = s.status ∧
        ∃ n ≤ 31, t.readReg rd = a.sshiftRight n)

/-! ### The step (40_execution_cycle.md) -/

/-- R401, R404, R405: a step whose fetched word decodes runs exactly that instruction. -/
def Obligations.StepRunsTheDecodedInstruction : Prop :=
  ∀ (s : State) (i : Instr), s.status = .run → 0x1000 ≤ s.pc.toNat → s.pc.toNat + 4 ≤ 0x10000 →
    decode (s.mem.read32 s.pc.toNat) = .ok i → step s = exec i s

/-- R402: the pc range check, before anything else. -/
def Obligations.PcOutsideTheRangeFails : Prop :=
  ∀ s : State, s.status = .run →
    ((s.pc.toNat < 0x1000 ∨ 0x10000 ≤ s.pc.toNat) →
      ∃ t, step s = .next t ∧ HaltsWith s t (.pcOutOfBounds s.pc)) ∧
    (0x1000 ≤ s.pc.toNat ∧ s.pc.toNat < 0x10000 →
      ∀ t, step s = .next t → ∀ pc, t.status ≠ .halted (.pcOutOfBounds pc))

/-- R403: the fetch reads the little-endian word at the pc; a fetch past the memory's end fails, which happens only for
a pc in `0xFFFD..0xFFFF` and in no run. -/
def Obligations.FetchPastTheEndFailsAndIsUnreachable : Prop :=
  (∀ s : State, 0x1000 ≤ s.pc.toNat → s.pc.toNat + 4 ≤ 0x10000 →
    s.fetch = .ok (s.mem.read (s.pc.toNat + 3) ++ s.mem.read (s.pc.toNat + 2) ++ s.mem.read (s.pc.toNat + 1) ++
      s.mem.read s.pc.toNat)) ∧
    (∀ s : State, s.status = .run → 0x1000 ≤ s.pc.toNat → s.pc.toNat < 0x10000 → 0x10000 < s.pc.toNat + 4 →
      (0xFFFD ≤ s.pc.toNat ∧ s.pc.toNat ≤ 0xFFFF) ∧
        ∃ t, step s = .next t ∧ HaltsWith s t (.invalidMemoryAccess s.pc)) ∧
    ∀ (words : List Word) (s : State) (pc : Word), Reachable words s → s.status ≠ .halted (.invalidMemoryAccess pc)

/-- A step is enabled exactly in `RUN`; `HALTED` absorbs the rest of the run; reset gives `RUN`
(40_execution_cycle.md section 1). The model's choice (log entry 1, DESIGN CHOICE): a step requested in `HALTED`
answers the fault `halted`. -/
def Obligations.StepIsEnabledExactlyInRun : Prop :=
  (∀ s : State, s.status = .run → ∃ t, step s = .next t) ∧
    (∀ (s : State) (e : ExecError), s.status = .halted e → step s = .fault .halted ∧ ∀ n, runSteps n s = s) ∧
    State.reset.status = .run

/-- R407, R710, R711 (D11, D13, the spec's decisions): a failing step changes only the status, and the error records
the pc of the step. -/
def Obligations.FailingStepChangesOnlyTheStatus : Prop :=
  ∀ s t : State, step s = .next t → t.status ≠ .run → ∃ e, HaltsWith s t e ∧ e.info.pc = s.pc

/-- R406 (marked derived): a successful step writes one register, the `rd` field of its word, and the pc, and changes no
byte of memory and not the status. -/
def Obligations.SuccessfulStepWritesOneRegister : Prop :=
  ∀ s t : State, step s = .next t → t.status = .run →
    ∃ v, Writes s t (Fin.ofNat 32 ((s.mem.read32 s.pc.toNat).toNat / 2 ^ 7)) v t.pc

/-- R111: how the pc advances. -/
def Obligations.PcAdvancesByFourOrByTheOffset : Prop :=
  ∀ s t : State, step s = .next t → let w := s.mem.read32 s.pc.toNat
    (t.status = .run → opcodeNat w ≠ 0x6F → t.pc = s.pc + 4#32) ∧
      (t.status = .run → opcodeNat w = 0x6F → t.pc = s.pc + (fieldsOf w).jimm) ∧
      (t.status ≠ .run → t.pc = s.pc)

/-- R720 with R701, R702, R711 (R702 is marked derived; D12, D13, D29, D4 to D7, D24 are the spec's decisions): a step
in `RUN` always answers a next state; it fails exactly with the first test that fails, and succeeds when none does. -/
def Obligations.StepFailsExactlyWithTheFirstFailingTest : Prop :=
  ∀ s : State, s.status = .run →
    ∃ t, step s = .next t ∧ ∀ e, t.status = .halted e ↔ FailsWith s e

/-- R411 (marked derived): a step depends only on the registers, the pc and the bytes of memory as they read, so two
states that agree on these step alike. -/
def Obligations.StepDependsOnlyOnWhatIsRead : Prop :=
  ∀ s s' : State, s.status = .run → s'.status = .run → s.pc = s'.pc → (∀ r, s.readReg r = s'.readReg r) →
    (∀ a, s.mem.read a = s'.mem.read a) →
    ∃ t t', step s = .next t ∧ step s' = .next t' ∧ t.status = t'.status ∧ t.pc = t'.pc ∧
      (∀ r, t.readReg r = t'.readReg r) ∧ ∀ a, t.mem.read a = t'.mem.read a

/-- R132, R143 (marked derived): no instruction and no step writes memory. -/
def Obligations.NothingWritesMemory : Prop :=
  (∀ (i : Instr) (s t : State), exec i s = .next t → t.mem = s.mem) ∧
    ∀ (n : Nat) (s : State), (runSteps n s).mem = s.mem

/-! ### Invariants -/

/-- The invariant holds after reset (R102, R114, R130, R122). Its clause that memory is canonical is the model's choice
(log entry 11, DESIGN CHOICE). -/
def Obligations.ResetIsSound : Prop := Inv State.reset

/-- The invariant holds after a program is loaded: `x0` is 0, the pc is a multiple of 4 and the status is truthful
(R102, R114, R122, R210). Its clause that memory is canonical is the model's choice (log entry 11, DESIGN CHOICE). -/
def Obligations.LoadedProgramIsSound : Prop :=
  ∀ (words : List Word) (s : State), loadProgram words State.reset = .ok s → Inv s

/-- Every step keeps the invariant: `x0` is 0 (R102, R408), the pc is a multiple of 4 (R114, marked derived), memory
stays canonical (the model's choice, log entry 11, DESIGN CHOICE), and a halted status records the pc, the word at the
pc, and never the unreachable InvalidMemoryAccess (R222, marked derived; R711, D13). -/
def Obligations.StepKeepsTheInvariant : Prop :=
  ∀ s t : State, Inv s → step s = .next t → Inv t

/-- R132, R250, R253 (marked derived): in every state a run reaches, the invariant holds and memory is as the loader
left it, so that a step at program word `k` fetches that word. The invariant's clause that memory is canonical is the
model's choice (log entry 11, DESIGN CHOICE). -/
def Obligations.ReachedStatesFetchTheLoadedProgram : Prop :=
  ∀ (words : List Word) (s : State), Reachable words s → Inv s ∧
    (∀ s₀, loadProgram words State.reset = .ok s₀ → s.mem = s₀.mem) ∧
    ∀ (k : Nat) (h : k < words.length), s.pc = BitVec.ofNat 32 (0x1000 + 4 * k) → s.fetch = .ok words[k]

/-! ### Runs (40_execution_cycle.md section 2) -/

/-- R420: a run takes its steps one by one with `step`, none for a budget of 0, and a run that halted stays as it is; so
a run of `m + n` steps is a run of `m` steps followed by a run of `n` steps. -/
def Obligations.RunsCompose : Prop :=
  (∀ s : State, runSteps 0 s = s) ∧
    (∀ (n : Nat) (s t : State), step s = .next t → runSteps (n + 1) s = runSteps n t) ∧
    (∀ (n : Nat) (s : State) (e : ExecError), s.status = .halted e → runSteps n s = s) ∧
    ∀ (m n : Nat) (s : State), runSteps (m + n) s = runSteps n (runSteps m s)

/-- R424 (marked derived), R421 (D22): a run from `RUN` either takes all its steps and ends in `RUN`, or ends at the
first failing step with the registers, pc and memory of the last successful instruction. -/
def Obligations.RunEndsAtTheFirstFailure : Prop :=
  ∀ (n : Nat) (s : State), s.status = .run →
    (∀ k ≤ n, (runSteps k s).status = .run) ∨
      ∃ k e, k < n ∧ (∀ j ≤ k, (runSteps j s).status = .run) ∧ runSteps n s = runSteps (k + 1) s ∧
        HaltsWith (runSteps k s) (runSteps n s) e

/-- Log entry 12 with R144, R210: the word placed by `withFetchWord` is the one the next step runs. -/
def Obligations.PlacedWordIsTheNextInstruction : Prop :=
  ∀ (s : State) (w : Nat) (i : Instr), s.mem.wf = true → decodeTableWord 32 w = some i →
    step (s.withFetchWord 32 w) = exec i (s.withFetchWord 32 w) ∧
      ∀ r, (s.withFetchWord 32 w).readReg r = s.readReg r

/-! ### The assembler (30_encoding.md section 5) -/

/-- R350, R358 to R362 with G1: every word the assembler produces is the word of a well-formed instruction, and decodes
to it. -/
def Obligations.AssembledWordsDecode : Prop :=
  ∀ (lines : List String) (words : List Word), assemble lines = .ok words →
    ∀ w ∈ words, ∃ i : Instr, i.wellFormed = true ∧ encode i = w ∧ decode w = .ok i

/-- R357 to R363: the text of every well-formed instruction assembles to its word. -/
def Obligations.InstructionTextAssembles : Prop :=
  ∀ i : Instr, i.wellFormed = true → assemble [instrText i] = .ok [encode i]

/-- R350, R371 (with D19, D25 for what a line's error is): assembly fails at the first line that fails. -/
def Obligations.AssemblyFailsAtTheFirstBadLine : Prop :=
  ∀ (lines : List String) (e : AsmError), assemble lines = .error e ↔
    ∃ before line after kind, lines = before ++ line :: after ∧
      (∀ l ∈ before, ∃ r, parseLine l = .ok r) ∧ parseLine line = .error kind ∧ e = asmError kind line

/-- R372: an assembly error carries the text of the offending line, a line of the program that fails with that very
error; UnknownMnemonic names the supported set; and no run starts. -/
def Obligations.AssemblyErrorsCarryTheLine : Prop :=
  ∀ (lines : List String) (e : AsmError), assemble lines = .error e →
    e.line ∈ lines ∧ parseLine e.line = .error e.kind ∧
      (e.kind = .unknownMnemonic → e.supported =
        ["add", "sub", "sll", "slt", "sltu", "xor", "srl", "sra", "or", "and", "addi", "slti", "sltiu", "xori", "ori",
          "andi", "slli", "srli", "srai", "lb", "lh", "lw", "lbu", "lhu", "jal"]) ∧
      ∀ n, submit n lines = .error (.assembly e)

/-- R351 (D19, the spec's decision on separator-only lines): exactly the lines of separators are blank, and a blank line
takes no address slot. -/
def Obligations.BlankLinesTakeNoSlot : Prop :=
  ∀ line : String, (parseLine line = .ok none ↔ ∀ c ∈ line.toList, isSeparator c = true) ∧
    ((∀ c ∈ line.toList, isSeparator c = true) → ∀ before after : List String,
      assemble (before ++ line :: after) = assemble (before ++ after))
end

