-- ==== Sys2Proof/Laws/Bits.lean ====
section
/-! SUPPORT. The laws of the bit helpers: fields placed in a word, the bytes of a word, register fields. -/

namespace Sys2Proof.Machine

@[simp] theorem regOfBits_regBits (r : RegIdx) : regOfBits (regBits r) = r := rfl
@[simp] theorem regBits_regOfBits (b : BitVec 5) : regBits (regOfBits b) = b := rfl

/-- Bit `i` of a placed field. -/
theorem getLsbD_place {n : Nat} (v : BitVec n) (k i : Nat) :
    (place v k).getLsbD i = (decide (i < 32) && decide (k ≤ i) && v.getLsbD (i - k)) := by
  unfold place
  rw [BitVec.getLsbD_shiftLeft, BitVec.getLsbD_setWidth]
  by_cases h1 : i < 32 <;> by_cases h2 : k ≤ i <;> simp [h1, h2, Nat.lt_of_le_of_lt (Nat.sub_le i k)]

/-- A field is read back where it was placed. -/
theorem extract_place {n : Nat} (v : BitVec n) {k : Nat} (h : k + n ≤ 32) : (place v k).extractLsb' k n = v := by
  ext i hi
  rw [BitVec.getElem_extractLsb', getLsbD_place, BitVec.getLsbD_eq_getElem (by omega)]
  simp
  omega

/-- A placed field leaves every other field 0. -/
theorem extract_place_of_disjoint {n : Nat} (v : BitVec n) {k s m : Nat} (h : k + n ≤ s ∨ s + m ≤ k) :
    (place v k).extractLsb' s m = 0#m := by
  ext i hi
  rw [BitVec.getElem_extractLsb', getLsbD_place]
  by_cases hk : k ≤ s + i
  · rw [BitVec.getLsbD_of_ge _ _ (by omega)]; simp
  · simp [hk]

/-- The byte at offset `d` of a word read from four bytes. -/
theorem byteOfWord_wordOfBytes (b0 b1 b2 b3 : Byte) :
    byteOfWord (wordOfBytes b0 b1 b2 b3) 0 = b0 ∧ byteOfWord (wordOfBytes b0 b1 b2 b3) 1 = b1 ∧
      byteOfWord (wordOfBytes b0 b1 b2 b3) 2 = b2 ∧ byteOfWord (wordOfBytes b0 b1 b2 b3) 3 = b3 := by
  refine ⟨?_, ?_, ?_, ?_⟩ <;> unfold byteOfWord wordOfBytes <;> ext i hi <;>
    simp only [BitVec.getElem_extractLsb', BitVec.getLsbD_append]
  · rw [if_pos (by omega)]; simp [hi]
  · rw [if_neg (by omega), if_pos (by omega)]; simp [hi]
  · rw [if_neg (by omega), if_neg (by omega), if_pos (by omega), show 8 * 2 + i - 8 - 8 = i by omega]; simp [hi]
  · rw [if_neg (by omega), if_neg (by omega), if_neg (by omega), show 8 * 3 + i - 8 - 8 - 8 = i by omega]; simp [hi]

/-- A word is put back together from its bytes. -/
@[simp] theorem wordOfBytes_byteOfWord (w : Word) :
    wordOfBytes (byteOfWord w 0) (byteOfWord w 1) (byteOfWord w 2) (byteOfWord w 3) = w := by
  unfold byteOfWord wordOfBytes
  refine BitVec.eq_of_getLsbD_eq fun i hi => ?_
  simp only [BitVec.getLsbD_append, BitVec.getLsbD_extractLsb']
  split_ifs <;> simp <;> grind

end Sys2Proof.Machine
end

