-- ==== Sys2Proof/Laws/Decode.lean ====
section
/-! SUPPORT. What the decoder's fields are on an encoded word: one lemma per format. -/

namespace Sys2Proof

open Sys2Proof.Machine

/-- The fields of an R-type or shift-immediate word. -/
theorem fieldsOf_encodeR (funct7 : BitVec 7) (rs2 : BitVec 5) (rs1 rd : RegIdx) (funct3 : BitVec 3)
    (opcode : BitVec 7) :
    let f := fieldsOf (encodeR funct7 rs2 rs1 funct3 rd opcode)
    f.opcode = opcode ∧ f.rd = rd ∧ f.funct3 = funct3 ∧ f.rs1 = rs1 ∧ f.rs2 = regOfBits rs2 ∧ f.funct7 = funct7 ∧
      f.shamt = rs2 := by
  simp (disch := omega) [fieldsOf, encodeR, BitVec.extractLsb'_or, extract_place, extract_place_of_disjoint]

/-- The fields of an I-type word. -/
theorem fieldsOf_encodeI (imm : BitVec 12) (rs1 rd : RegIdx) (funct3 : BitVec 3) (opcode : BitVec 7) :
    let f := fieldsOf (encodeI imm rs1 funct3 rd opcode)
    f.opcode = opcode ∧ f.rd = rd ∧ f.funct3 = funct3 ∧ f.rs1 = rs1 ∧ f.immBits = imm := by
  simp (disch := omega) [fieldsOf, encodeI, BitVec.extractLsb'_or, extract_place, extract_place_of_disjoint]

/-- The fields of a J-type word; the offset's bit 0 is not stored and reads back as 0 (R306). -/
theorem fieldsOf_encodeJ (offset : BitVec 21) (rd : RegIdx) (opcode : BitVec 7) :
    let f := fieldsOf (encodeJ offset rd opcode)
    f.opcode = opcode ∧ f.rd = rd ∧
      f.jimmBits = offset.extractLsb' 20 1 ++ offset.extractLsb' 12 8 ++ offset.extractLsb' 11 1 ++
        offset.extractLsb' 1 10 ++ 0#1 := by
  simp (disch := omega) [fieldsOf, jimmBitsOf, encodeJ, BitVec.extractLsb'_or, extract_place,
    extract_place_of_disjoint]

end Sys2Proof
end

