-- ==== Sys2Proof/Laws/Memory.lean ====
section
/-! SUPPORT. The laws of memory: a read after a write, and every operation keeps the canonical form. -/

namespace Sys2Proof.Machine

theorem Memory.wfFrom_cons {lo k : Nat} {b : Byte} {m : Memory} :
    Memory.wfFrom lo ((k, b) :: m) = true ↔
      lo ≤ k ∧ k < Config.memSize ∧ b ≠ Memory.unlisted ∧ Memory.wfFrom (k + 1) m = true := by
  simp [Memory.wfFrom, and_assoc]

theorem Memory.wfFrom_mono {lo lo' : Nat} {m : Memory} (h : Memory.wfFrom lo m = true) (hl : lo' ≤ lo) :
    Memory.wfFrom lo' m = true := by
  cases m with
  | nil => rfl
  | cons c m =>
    rw [Memory.wfFrom_cons] at h ⊢
    exact ⟨by omega, h.2⟩

/-- A canonical memory lists nothing below its lower bound. -/
theorem Memory.read_below {lo : Nat} {m : Memory} (h : Memory.wfFrom lo m = true) {a : Nat} (ha : a < lo) :
    m.read a = Memory.unlisted := by
  induction m generalizing lo with
  | nil => rfl
  | cons c m ih =>
    obtain ⟨k, b⟩ := c
    rw [Memory.wfFrom_cons] at h
    rw [Memory.read, if_neg (by omega)]
    exact ih h.2.2.2 (by omega)

/-- A canonical memory lists nothing at or above `MEM_SIZE` (R131). -/
theorem Memory.read_above {m : Memory} (h : m.wf = true) {a : Nat} (ha : Config.memSize ≤ a) :
    m.read a = Memory.unlisted := by
  have key : ∀ lo, Memory.wfFrom lo m = true → m.read a = Memory.unlisted := by
    induction m with
    | nil => exact fun _ _ => rfl
    | cons c m ih =>
      obtain ⟨k, b⟩ := c
      intro lo hlo
      have hc := Memory.wfFrom_cons.1 hlo
      rw [Memory.read, if_neg (by omega)]
      exact ih (Memory.wfFrom_mono hc.2.2.2 (Nat.zero_le _)) _ hc.2.2.2
  exact key 0 h

theorem Memory.wfFrom_insert {lo : Nat} {m : Memory} (h : Memory.wfFrom lo m = true) {a : Nat} (b : Byte)
    (hlo : lo ≤ a) (ha : a < Config.memSize) : Memory.wfFrom lo (m.insert a b) = true := by
  induction m generalizing lo with
  | nil =>
    unfold Memory.insert
    split
    · rfl
    · exact Memory.wfFrom_cons.2 ⟨hlo, ha, ‹_›, rfl⟩
  | cons c m ih =>
    obtain ⟨k, c⟩ := c
    have hc := Memory.wfFrom_cons.1 h
    unfold Memory.insert
    split_ifs with h1 h2 h3 h4
    · exact Memory.wfFrom_cons.2 ⟨hc.1, hc.2.1, hc.2.2.1, ih hc.2.2.2 (by omega)⟩
    · exact Memory.wfFrom_mono hc.2.2.2 (by omega)
    · exact Memory.wfFrom_cons.2 ⟨hlo, ha, h3, h2 ▸ hc.2.2.2⟩
    · exact h
    · exact Memory.wfFrom_cons.2
        ⟨hlo, ha, h4, Memory.wfFrom_cons.2 ⟨by omega, hc.2.1, hc.2.2.1, hc.2.2.2⟩⟩

/-- The byte at `a` after storing `b` at `k`. -/
theorem Memory.read_insert {m : Memory} {lo : Nat} (h : Memory.wfFrom lo m = true) (k : Nat) (b : Byte) (a : Nat) :
    (m.insert k b).read a = if a = k then b else m.read a := by
  induction m generalizing lo with
  | nil =>
    unfold Memory.insert
    by_cases hak : a = k
    · subst hak
      split <;> simp_all [Memory.read]
    · have hka : ¬ k = a := fun e => hak e.symm
      split <;> simp [Memory.read, hka]
  | cons c m ih =>
    obtain ⟨j, c⟩ := c
    have hc := Memory.wfFrom_cons.1 h
    have below : ∀ {a}, a < j + 1 → Memory.read m a = Memory.unlisted := Memory.read_below hc.2.2.2
    rcases Nat.lt_trichotomy j k with hjk | rfl | hjk
    · rw [Memory.insert, if_pos hjk]
      simp only [Memory.read, ih hc.2.2.2]
      by_cases hja : j = a
      · rw [if_pos hja, if_neg (by omega), if_pos hja]
      · rw [if_neg hja, if_neg hja]
    · rw [Memory.insert, if_neg (Nat.lt_irrefl _), if_pos rfl]
      by_cases haj : a = j
      · rw [if_pos haj, haj]
        split
        · rw [below (Nat.lt_succ_self _), ‹b = _›]
        · simp [Memory.read]
      · have hja : ¬ j = a := fun e => haj e.symm
        split <;> simp [Memory.read, hja]
    · rw [Memory.insert, if_neg (by omega), if_neg (by omega)]
      by_cases hak : a = k
      · rw [if_pos hak]
        split
        · rw [Memory.read, if_neg (by omega), below (by omega), ‹b = _›]
        · simp [Memory.read, hak]
      · have hka : ¬ k = a := fun e => hak e.symm
        split <;> simp [Memory.read, hka]

/-- Writing keeps the canonical form. -/
theorem Memory.wf_write {m : Memory} (h : m.wf = true) (a : Nat) (b : Byte) : (m.write a b).wf = true := by
  unfold Memory.write
  split
  · exact Memory.wfFrom_insert h b (Nat.zero_le _) ‹_›
  · exact h

/-- The byte at `a` after a write of `b` at `k`. -/
theorem Memory.read_write {m : Memory} (h : m.wf = true) (k : Nat) (b : Byte) (a : Nat) :
    (m.write k b).read a = if a = k ∧ k < Config.memSize then b else m.read a := by
  unfold Memory.write
  split
  · rw [Memory.read_insert h]; simp [*]
  · simp [*]

/-- Writing a word keeps the canonical form. -/
theorem Memory.wf_write32 {m : Memory} (h : m.wf = true) (a : Nat) (w : Word) : (m.write32 a w).wf = true :=
  Memory.wf_write (Memory.wf_write (Memory.wf_write (Memory.wf_write h _ _) _ _) _ _) _ _

/-- The byte at `a` after a write of the word `w` at `k` that fits in memory. -/
theorem Memory.read_write32 {m : Memory} (h : m.wf = true) {k : Nat} (hk : k + 4 ≤ Config.memSize) (w : Word)
    (a : Nat) : (m.write32 k w).read a = if k ≤ a ∧ a < k + 4 then byteOfWord w (a - k) else m.read a := by
  have h0 := Memory.wf_write h k (byteOfWord w 0)
  have h1 := Memory.wf_write h0 (k + 1) (byteOfWord w 1)
  have h2 := Memory.wf_write h1 (k + 2) (byteOfWord w 2)
  unfold Memory.write32
  rw [Memory.read_write h2, Memory.read_write h1, Memory.read_write h0, Memory.read_write h]
  by_cases ha : k ≤ a ∧ a < k + 4
  · obtain ⟨d, rfl⟩ := Nat.exists_eq_add_of_le ha.1
    have hd : d = 0 ∨ d = 1 ∨ d = 2 ∨ d = 3 := by omega
    rcases hd with rfl | rfl | rfl | rfl <;> simp <;> omega
  · rw [if_neg (by omega), if_neg (by omega), if_neg (by omega), if_neg (by omega), if_neg ha]

/-- Loading a program keeps the canonical form. -/
theorem Memory.wf_loadWords {m : Memory} (h : m.wf = true) (a : Nat) (ws : List Word) :
    (m.loadWords a ws).wf = true := by
  induction ws generalizing a m with
  | nil => exact h
  | cons w ws ih => exact ih (Memory.wf_write32 h a w) (a + 4)

end Sys2Proof.Machine
end

