-- ==== Sys2Proof/Laws/PerInstr.lean ====
section
/-! SUPPORT. The per-instruction family `OpcodeRow`: the word of an instruction has the mask and match of its row of
spec/opcode_table.json. -/

namespace Sys2Proof.Laws

open Sys2Proof.Machine

/-- An R-type word under its mask: funct7, funct3 and opcode remain. -/
theorem encodeR_mask (funct7 : BitVec 7) (rs2 : BitVec 5) (rs1 rd : RegIdx) (funct3 : BitVec 3) (opcode : BitVec 7) :
    encodeR funct7 rs2 rs1 funct3 rd opcode &&& 0xFE00707F#32 = place funct7 25 ||| place funct3 12 ||| place opcode 0 := by
  refine BitVec.eq_of_getLsbD_eq fun i hi => ?_
  simp only [encodeR, BitVec.getLsbD_and, BitVec.getLsbD_or, getLsbD_place]
  interval_cases i <;> simp

/-- An I-type word under its mask: funct3 and opcode remain. -/
theorem encodeI_mask (imm : BitVec 12) (rs1 rd : RegIdx) (funct3 : BitVec 3) (opcode : BitVec 7) :
    encodeI imm rs1 funct3 rd opcode &&& 0x0000707F#32 = place funct3 12 ||| place opcode 0 := by
  refine BitVec.eq_of_getLsbD_eq fun i hi => ?_
  simp only [encodeI, BitVec.getLsbD_and, BitVec.getLsbD_or, getLsbD_place]
  interval_cases i <;> simp

/-- A J-type word under its mask: the opcode remains. -/
theorem encodeJ_mask (offset : BitVec 21) (rd : RegIdx) (opcode : BitVec 7) :
    encodeJ offset rd opcode &&& 0x0000007F#32 = place opcode 0 := by
  refine BitVec.eq_of_getLsbD_eq fun i hi => ?_
  simp only [encodeJ, BitVec.getLsbD_and, BitVec.getLsbD_or, getLsbD_place]
  interval_cases i <;> simp

end Sys2Proof.Laws

namespace Sys2Proof.Laws.OpcodeRow

/-- The instruction's word matches its row of the opcode table. -/
def Statement (i : Instr) : Prop := encode i &&& i.rowMask = i.rowMatch

theorem add (rd rs1 rs2 : RegIdx) : Statement (.add rd rs1 rs2) := encodeR_mask _ _ _ _ _ _
theorem sub (rd rs1 rs2 : RegIdx) : Statement (.sub rd rs1 rs2) := encodeR_mask _ _ _ _ _ _
theorem sll (rd rs1 rs2 : RegIdx) : Statement (.sll rd rs1 rs2) := encodeR_mask _ _ _ _ _ _
theorem slt (rd rs1 rs2 : RegIdx) : Statement (.slt rd rs1 rs2) := encodeR_mask _ _ _ _ _ _
theorem sltu (rd rs1 rs2 : RegIdx) : Statement (.sltu rd rs1 rs2) := encodeR_mask _ _ _ _ _ _
theorem xor (rd rs1 rs2 : RegIdx) : Statement (.xor rd rs1 rs2) := encodeR_mask _ _ _ _ _ _
theorem srl (rd rs1 rs2 : RegIdx) : Statement (.srl rd rs1 rs2) := encodeR_mask _ _ _ _ _ _
theorem sra (rd rs1 rs2 : RegIdx) : Statement (.sra rd rs1 rs2) := encodeR_mask _ _ _ _ _ _
theorem or (rd rs1 rs2 : RegIdx) : Statement (.or rd rs1 rs2) := encodeR_mask _ _ _ _ _ _
theorem and (rd rs1 rs2 : RegIdx) : Statement (.and rd rs1 rs2) := encodeR_mask _ _ _ _ _ _
theorem addi (rd rs1 : RegIdx) (imm : BitVec 12) : Statement (.addi rd rs1 imm) := encodeI_mask _ _ _ _ _
theorem slti (rd rs1 : RegIdx) (imm : BitVec 12) : Statement (.slti rd rs1 imm) := encodeI_mask _ _ _ _ _
theorem sltiu (rd rs1 : RegIdx) (imm : BitVec 12) : Statement (.sltiu rd rs1 imm) := encodeI_mask _ _ _ _ _
theorem xori (rd rs1 : RegIdx) (imm : BitVec 12) : Statement (.xori rd rs1 imm) := encodeI_mask _ _ _ _ _
theorem ori (rd rs1 : RegIdx) (imm : BitVec 12) : Statement (.ori rd rs1 imm) := encodeI_mask _ _ _ _ _
theorem andi (rd rs1 : RegIdx) (imm : BitVec 12) : Statement (.andi rd rs1 imm) := encodeI_mask _ _ _ _ _
theorem lb (rd rs1 : RegIdx) (imm : BitVec 12) : Statement (.lb rd rs1 imm) := encodeI_mask _ _ _ _ _
theorem lh (rd rs1 : RegIdx) (imm : BitVec 12) : Statement (.lh rd rs1 imm) := encodeI_mask _ _ _ _ _
theorem lw (rd rs1 : RegIdx) (imm : BitVec 12) : Statement (.lw rd rs1 imm) := encodeI_mask _ _ _ _ _
theorem lbu (rd rs1 : RegIdx) (imm : BitVec 12) : Statement (.lbu rd rs1 imm) := encodeI_mask _ _ _ _ _
theorem lhu (rd rs1 : RegIdx) (imm : BitVec 12) : Statement (.lhu rd rs1 imm) := encodeI_mask _ _ _ _ _
theorem slli (rd rs1 : RegIdx) (shamt : BitVec 5) : Statement (.slli rd rs1 shamt) := encodeR_mask _ _ _ _ _ _
theorem srli (rd rs1 : RegIdx) (shamt : BitVec 5) : Statement (.srli rd rs1 shamt) := encodeR_mask _ _ _ _ _ _
theorem srai (rd rs1 : RegIdx) (shamt : BitVec 5) : Statement (.srai rd rs1 shamt) := encodeR_mask _ _ _ _ _ _
theorem jal (rd : RegIdx) (offset : BitVec 21) : Statement (.jal rd offset) := encodeJ_mask _ _ _

end Sys2Proof.Laws.OpcodeRow
end

