-- ==== Sys2Proof/Laws/State.lean ====
section
/-! SUPPORT. The small lemmas of the state operations: one per field per update, and the register-file laws. -/

namespace Sys2Proof.Machine

/-! ### One lemma per field per update -/

@[simp] theorem State.setPc_x (s : State) (t : Word) : (s.setPc t).x = s.x := rfl
@[simp] theorem State.setPc_pc (s : State) (t : Word) : (s.setPc t).pc = t := rfl
@[simp] theorem State.setPc_mem (s : State) (t : Word) : (s.setPc t).mem = s.mem := rfl
@[simp] theorem State.setPc_status (s : State) (t : Word) : (s.setPc t).status = s.status := rfl

@[simp] theorem State.raise_x (s : State) (e : ExecError) : (s.raise e).x = s.x := rfl
@[simp] theorem State.raise_pc (s : State) (e : ExecError) : (s.raise e).pc = s.pc := rfl
@[simp] theorem State.raise_mem (s : State) (e : ExecError) : (s.raise e).mem = s.mem := rfl
@[simp] theorem State.raise_status (s : State) (e : ExecError) : (s.raise e).status = .halted e := rfl

@[simp] theorem State.writeReg_zero (s : State) (v : Word) : s.writeReg 0 v = s := rfl

theorem State.writeReg_of_ne (s : State) {r : RegIdx} (h : r ≠ 0) (v : Word) :
    s.writeReg r v = { s with x := s.x.set r v } := if_neg h

@[simp] theorem State.writeReg_pc (s : State) (r : RegIdx) (v : Word) : (s.writeReg r v).pc = s.pc := by
  unfold State.writeReg; split <;> rfl
@[simp] theorem State.writeReg_mem (s : State) (r : RegIdx) (v : Word) : (s.writeReg r v).mem = s.mem := by
  unfold State.writeReg; split <;> rfl
@[simp] theorem State.writeReg_status (s : State) (r : RegIdx) (v : Word) : (s.writeReg r v).status = s.status := by
  unfold State.writeReg; split <;> rfl

@[simp] theorem State.commit_pc (s : State) (r : RegIdx) (v t : Word) : (s.commit r v t).pc = t := rfl
@[simp] theorem State.commit_mem (s : State) (r : RegIdx) (v t : Word) : (s.commit r v t).mem = s.mem := by
  simp [State.commit]
@[simp] theorem State.commit_status (s : State) (r : RegIdx) (v t : Word) : (s.commit r v t).status = s.status := by
  simp [State.commit]

@[simp] theorem State.retire_pc (s : State) (r : RegIdx) (v : Word) : (s.retire r v).pc = s.pc + 4#32 := rfl
@[simp] theorem State.retire_mem (s : State) (r : RegIdx) (v : Word) : (s.retire r v).mem = s.mem := by
  simp [State.retire]
@[simp] theorem State.retire_status (s : State) (r : RegIdx) (v : Word) : (s.retire r v).status = s.status := by
  simp [State.retire]

@[simp] theorem State.reset_pc : State.reset.pc = 0x1000#32 := rfl
@[simp] theorem State.reset_mem : State.reset.mem = [] := rfl
@[simp] theorem State.reset_status : State.reset.status = .run := rfl

/-! ### The register file (R102, R103) -/

@[simp] theorem State.readReg_zero (s : State) : s.readReg 0 = 0#32 := rfl

theorem State.readReg_of_ne (s : State) {r : RegIdx} (h : r ≠ 0) : s.readReg r = s.x[r] := if_neg h

@[simp] theorem State.readReg_setPc (s : State) (t : Word) (r : RegIdx) : (s.setPc t).readReg r = s.readReg r := rfl
@[simp] theorem State.readReg_raise (s : State) (e : ExecError) (r : RegIdx) : (s.raise e).readReg r = s.readReg r := rfl

@[simp] theorem State.reset_readReg (r : RegIdx) : State.reset.readReg r = 0#32 := by
  simp [State.readReg, State.reset]

/-- A register reads what was last written to it; `x0` reads 0. -/
theorem State.readReg_writeReg_self (s : State) (r : RegIdx) (v : Word) :
    (s.writeReg r v).readReg r = if r = 0 then 0#32 else v := by
  by_cases h : r = 0 <;> simp [h, State.readReg, State.writeReg]

/-- Every other register reads as before. -/
theorem State.readReg_writeReg_of_ne (s : State) {r q : RegIdx} (h : q ≠ r) (v : Word) :
    (s.writeReg r v).readReg q = s.readReg q := by
  by_cases hr : r = 0
  · simp [hr, State.writeReg]
  · have : (r : Nat) ≠ q := fun e => h (Fin.ext e.symm)
    simp [State.readReg, State.writeReg, hr, this]

/-- `x0`'s slot keeps its value under every register write. -/
theorem State.writeReg_x_zero (s : State) (r : RegIdx) (v : Word) :
    (s.writeReg r v).x[(0 : RegIdx)] = s.x[(0 : RegIdx)] := by
  by_cases hr : r = 0
  · simp [hr, State.writeReg]
  · have : (r : Nat) ≠ 0 := fun e => hr (Fin.ext e)
    simp [State.writeReg, hr, this]

end Sys2Proof.Machine
end

