-- ==== Sys2Proof/Laws/Step.lean ====
section
/-! SUPPORT. Everything a shared operation, an instruction and a step can do, said once. -/

namespace Sys2Proof.Machine

/-! ### The shared operations -/

theorem aluReg_eq (op : AluOp) (rd rs1 rs2 : RegIdx) (s : State) :
    aluReg op rd rs1 rs2 s = .next (s.retire rd (alu op (s.readReg rs1) (s.readReg rs2))) := rfl

theorem aluImm_eq (op : AluOp) (rd rs1 : RegIdx) (v : Word) (s : State) :
    aluImm op rd rs1 v s = .next (s.retire rd (alu op (s.readReg rs1) v)) := rfl

/-- A load whose address passes its checks completes. -/
theorem load_of_ok {n : Nat} {rs1 : RegIdx} {imm : BitVec 12} {s : State}
    (h : loadAddressOk n (effectiveAddress s rs1 imm) = true) (value : Memory → Nat → Word) (rd : RegIdx) :
    load n value rd rs1 imm s = .next (s.retire rd (value s.mem (effectiveAddress s rs1 imm).toNat)) := if_pos h

/-- A load whose address fails its checks takes the failure. -/
theorem load_of_not_ok {n : Nat} {rs1 : RegIdx} {imm : BitVec 12} {s : State}
    (h : loadAddressOk n (effectiveAddress s rs1 imm) = false) (value : Memory → Nat → Word) (rd : RegIdx) :
    load n value rd rs1 imm s = .next (s.raise (.invalidMemoryAddress s.pc (effectiveAddress s rs1 imm))) :=
  if_neg (by simp [h])

/-- A commit is a register write and a pc write, and nothing else. -/
theorem writes_commit (s : State) (rd : RegIdx) (v target : Word) : Writes s (s.commit rd v target) rd v target where
  result := s.readReg_writeReg_self rd v
  others _ h := s.readReg_writeReg_of_ne h v
  pc := rfl
  bytes _ := by rw [State.commit_mem]
  status := State.commit_status ..

theorem writes_retire (s : State) (rd : RegIdx) (v : Word) : Writes s (s.retire rd v) rd v (s.pc + 4#32) :=
  writes_commit s rd v _

/-- A failure changes the status and nothing else. -/
theorem haltsWith_raise (s : State) (e : ExecError) : HaltsWith s (s.raise e) e where
  status := rfl
  regs _ := rfl
  pc := rfl
  bytes _ := rfl

/-! ### One instruction -/

/-- What an instruction can do: commit one register and the pc, or take one of its two failures. -/
theorem exec_cases (i : Instr) (s : State) :
    (∃ rd v target, exec i s = .next (s.commit rd v target)) ∨
      (∃ ea, exec i s = .next (s.raise (.invalidMemoryAddress s.pc ea))) ∨
      (∃ rd offset, i = .jal rd offset ∧ exec i s = .next (s.raise (.unalignedJump s.pc (encode i)))) := by
  have hload : ∀ n value rd rs1 imm,
      (∃ r v t, load n value rd rs1 imm s = .next (s.commit r v t)) ∨
        (∃ ea, load n value rd rs1 imm s = .next (s.raise (.invalidMemoryAddress s.pc ea))) := by
    intro n value rd rs1 imm
    cases h : loadAddressOk n (effectiveAddress s rs1 imm) with
    | true => exact .inl ⟨_, _, _, load_of_ok h value rd⟩
    | false => exact .inr ⟨_, load_of_not_ok h value rd⟩
  cases i with
  | jal rd offset =>
    cases h : jumpAligned offset with
    | true => exact .inl ⟨_, _, _, if_pos h⟩
    | false => exact .inr (.inr ⟨rd, offset, rfl, if_neg (by simp [h])⟩)
  | lb rd rs1 imm => exact (hload 1 (fun m a => sext (m.read a)) rd rs1 imm).imp_right .inl
  | lh rd rs1 imm => exact (hload 2 (fun m a => sext (m.read16 a)) rd rs1 imm).imp_right .inl
  | lw rd rs1 imm => exact (hload 4 (fun m a => m.read32 a) rd rs1 imm).imp_right .inl
  | lbu rd rs1 imm => exact (hload 1 (fun m a => zext (m.read a)) rd rs1 imm).imp_right .inl
  | lhu rd rs1 imm => exact (hload 2 (fun m a => zext (m.read16 a)) rd rs1 imm).imp_right .inl
  | _ => exact .inl ⟨_, _, _, rfl⟩

/-! ### One step -/

theorem State.pcInRange_iff (s : State) : s.pcInRange = true ↔ Config.base ≤ s.pc.toNat ∧ s.pc.toNat < Config.memSize := by
  simp [State.pcInRange]

/-- The fetch succeeds exactly when the pc is in range and its four bytes fit. -/
theorem State.fetch_ok_iff (s : State) (w : Word) :
    s.fetch = .ok w ↔
      Config.base ≤ s.pc.toNat ∧ s.pc.toNat + 4 ≤ Config.memSize ∧ w = s.mem.read32 s.pc.toNat := by
  unfold State.fetch Memory.ifetch
  have := s.pcInRange_iff
  by_cases h1 : s.pcInRange = true <;> by_cases h2 : s.pc.toNat + 4 ≤ Config.memSize <;>
    simp only [h1, h2, if_true, if_false, Bool.false_eq_true] <;> simp <;> grind

/-- The errors a fetch can give. -/
theorem State.fetch_error {s : State} {e : ExecError} (h : s.fetch = .error e) :
    (e = .pcOutOfBounds s.pc ∧ s.pcInRange = false) ∨
      (e = .invalidMemoryAccess s.pc ∧ s.pcInRange = true ∧ Config.memSize < s.pc.toNat + 4) := by
  unfold State.fetch Memory.ifetch at h
  by_cases h1 : s.pcInRange = true <;> by_cases h2 : s.pc.toNat + 4 ≤ Config.memSize <;>
    simp only [h1, h2, if_true, if_false, Bool.false_eq_true, reduceCtorEq] at h
  · exact .inr ⟨by simpa using h.symm, h1, by omega⟩
  · exact .inl ⟨by simpa using h.symm, by simpa using h1⟩
  · exact .inl ⟨by simpa using h.symm, by simpa using h1⟩

theorem step_of_halted {s : State} {e : ExecError} (h : s.status = .halted e) : step s = .fault .halted := by
  simp [step, h]

theorem step_of_fetch_error {s : State} {e : ExecError} (hr : s.status = .run) (h : s.fetch = .error e) :
    step s = .next (s.raise e) := by
  simp [step, hr, h]

theorem step_of_decode_error {s : State} {w : Word} {e : DecodeError} (hr : s.status = .run) (hf : s.fetch = .ok w)
    (hd : decode w = .error e) : step s = .next (s.raise (decodeFailure s.pc w e)) := by
  simp [step, hr, hf, hd]

theorem step_of_decode {s : State} {w : Word} {i : Instr} (hr : s.status = .run) (hf : s.fetch = .ok w)
    (hd : decode w = .ok i) : step s = exec i s := by
  simp [step, hr, hf, hd]

/-- Everything a step with a next state can have done: it failed its fetch, it failed its decode, or it ran the
instruction at the pc. -/
theorem step_cases {s t : State} (h : step s = .next t) :
    s.status = .run ∧
      ((∃ e, s.fetch = .error e ∧ t = s.raise e) ∨
        (∃ w e, s.fetch = .ok w ∧ decode w = .error e ∧ t = s.raise (decodeFailure s.pc w e)) ∨
        (∃ w i, s.fetch = .ok w ∧ decode w = .ok i ∧ exec i s = .next t)) := by
  cases hs : s.status with
  | halted e => simp [step_of_halted hs] at h
  | run =>
    refine ⟨rfl, ?_⟩
    cases hf : s.fetch with
    | error e =>
      rw [step_of_fetch_error hs hf] at h
      exact .inl ⟨e, rfl, by simpa using h.symm⟩
    | ok w =>
      cases hd : decode w with
      | error e =>
        rw [step_of_decode_error hs hf hd] at h
        exact .inr (.inl ⟨w, e, rfl, hd, by simpa using h.symm⟩)
      | ok i =>
        rw [step_of_decode hs hf hd] at h
        exact .inr (.inr ⟨w, i, rfl, hd, h⟩)

/-! ### A run -/

@[simp] theorem runSteps_zero (s : State) : runSteps 0 s = s := rfl

theorem runSteps_of_halted {s : State} {e : ExecError} (h : s.status = .halted e) (n : Nat) : runSteps n s = s := by
  cases n <;> simp [runSteps, h]

theorem runSteps_succ {s t : State} (h : step s = .next t) (n : Nat) : runSteps (n + 1) s = runSteps n t := by
  simp [runSteps, (step_cases h).1, h]

end Sys2Proof.Machine
end

