-- ==== Sys2Proof/Tests/Slice0.lean ====
section
/-! SUPPORT. The model's own tests. Every expected value is taken from spec/95_test_vectors.md or from the encodings of
spec/30_encoding.md; each docstring names the vector or rule. The last part has, for each obligation with hypotheses, a
concrete state and operands that meet all of them. -/

namespace Sys2Proof.Tests

open Sys2Proof Sys2Proof.Machine

/-! ### WellFormed -/

/-- R306, R320: a jump offset's bit 0 is not stored, so an odd offset has no word. -/
theorem test_wellFormed_refuses_odd_jump : (Instr.jal 1 7#21).wellFormed = false := by decide

theorem test_wellFormed_accepts_even_jump : (Instr.jal 1 6#21).wellFormed = true := by decide

/-! ### Decoding: for every instruction a word written out from its format (R303 to R306), fields apart -/

/-- V-R1: `add x3, x1, x2`. -/
theorem test_decode_add :
    decode 0b0000000_00010_00001_000_00011_0110011#32 = .ok (.add 3 1 2) := by decide

/-- V-R4: `sub x3, x1, x2`. -/
theorem test_decode_sub :
    decode 0b0100000_00010_00001_000_00011_0110011#32 = .ok (.sub 3 1 2) := by decide

/-- V-R6: `sll x3, x1, x2`. -/
theorem test_decode_sll :
    decode 0b0000000_00010_00001_001_00011_0110011#32 = .ok (.sll 3 1 2) := by decide

/-- V-R8: `slt x3, x1, x2`. -/
theorem test_decode_slt :
    decode 0b0000000_00010_00001_010_00011_0110011#32 = .ok (.slt 3 1 2) := by decide

/-- V-R9: `sltu x3, x1, x2`. -/
theorem test_decode_sltu :
    decode 0b0000000_00010_00001_011_00011_0110011#32 = .ok (.sltu 3 1 2) := by decide

/-- V-R12: `xor x3, x1, x2`. -/
theorem test_decode_xor :
    decode 0b0000000_00010_00001_100_00011_0110011#32 = .ok (.xor 3 1 2) := by decide

/-- V-R13: `srl x3, x1, x2`. -/
theorem test_decode_srl :
    decode 0b0000000_00010_00001_101_00011_0110011#32 = .ok (.srl 3 1 2) := by decide

/-- V-R14: `sra x3, x1, x2`. -/
theorem test_decode_sra :
    decode 0b0100000_00010_00001_101_00011_0110011#32 = .ok (.sra 3 1 2) := by decide

/-- V-R16: `or x3, x1, x2`. -/
theorem test_decode_or :
    decode 0b0000000_00010_00001_110_00011_0110011#32 = .ok (.or 3 1 2) := by decide

/-- V-R17: `and x3, x1, x2`. -/
theorem test_decode_and :
    decode 0b0000000_00010_00001_111_00011_0110011#32 = .ok (.and 3 1 2) := by decide

/-- V-I2: `addi x1, x0, -1`. -/
theorem test_decode_addi :
    decode 0b111111111111_00000_000_00001_0010011#32 = .ok (.addi 1 0 (-1#12)) := by decide

/-- V-I5: `slti x2, x1, -2048`. -/
theorem test_decode_slti :
    decode 0b100000000000_00001_010_00010_0010011#32 = .ok (.slti 2 1 (-2048#12)) := by decide

/-- V-I6: `sltiu x2, x1, -1`. -/
theorem test_decode_sltiu :
    decode 0b111111111111_00001_011_00010_0010011#32 = .ok (.sltiu 2 1 (-1#12)) := by decide

/-- V-I9: `xori x2, x1, -1`. -/
theorem test_decode_xori :
    decode 0b111111111111_00001_100_00010_0010011#32 = .ok (.xori 2 1 (-1#12)) := by decide

/-- V-I10: `ori x2, x1, 255`. -/
theorem test_decode_ori :
    decode 0b000011111111_00001_110_00010_0010011#32 = .ok (.ori 2 1 255#12) := by decide

/-- V-I12: `andi x2, x1, 2047`. -/
theorem test_decode_andi :
    decode 0b011111111111_00001_111_00010_0010011#32 = .ok (.andi 2 1 2047#12) := by decide

/-- V-I14: `slli x1, x1, 31`. -/
theorem test_decode_slli :
    decode 0b0000000_11111_00001_001_00001_0010011#32 = .ok (.slli 1 1 31#5) := by decide

/-- V-I15: `srli x2, x1, 31`. -/
theorem test_decode_srli :
    decode 0b0000000_11111_00001_101_00010_0010011#32 = .ok (.srli 2 1 31#5) := by decide

/-- V-I16: `srai x2, x1, 4`. -/
theorem test_decode_srai :
    decode 0b0100000_00100_00001_101_00010_0010011#32 = .ok (.srai 2 1 4#5) := by decide

/-- V-L6: `lb x2, 7(x1)`. -/
theorem test_decode_lb :
    decode 0b000000000111_00001_000_00010_0000011#32 = .ok (.lb 2 1 7#12) := by decide

/-- V-L3: `lh x2, 2(x1)`. -/
theorem test_decode_lh :
    decode 0b000000000010_00001_001_00010_0000011#32 = .ok (.lh 2 1 2#12) := by decide

/-- V-L9: `lw x2, -4(x1)`. -/
theorem test_decode_lw :
    decode 0b111111111100_00001_010_00010_0000011#32 = .ok (.lw 2 1 (-4#12)) := by decide

/-- V-L2: `lbu x2, 0(x1)`. -/
theorem test_decode_lbu :
    decode 0b000000000000_00001_100_00010_0000011#32 = .ok (.lbu 2 1 0#12) := by decide

/-- V-L10: `lhu x2, 6(x1)`. -/
theorem test_decode_lhu :
    decode 0b000000000110_00001_101_00010_0000011#32 = .ok (.lhu 2 1 6#12) := by decide

/-- V-J2: `jal x5, -16`; the offset's bits 20, 10:1, 11, 19:12 (R306). -/
theorem test_decode_jal :
    decode 0b1_1111111000_1_11111111_00101_1101111#32 = .ok (.jal 5 (-16#21)) := by
  decide

/-- The words above are the words that the vectors print. -/
theorem test_encode_vectors :
    encode (.sub 3 1 2) = 0x402081B3#32 ∧ encode (.sra 3 1 2) = 0x4020D1B3#32 ∧
      encode (.slti 2 1 (-2048#12)) = 0x8000A113#32 ∧ encode (.slli 1 1 31#5) = 0x01F09093#32 ∧
      encode (.srai 2 1 4#5) = 0x4040D113#32 ∧
      encode (.lw 2 1 (-4#12)) = 0xFFC0A103#32 ∧ encode (.lhu 2 1 6#12) = 0x0060D103#32 ∧
      encode (.jal 5 (-16#21)) = 0xFF1FF2EF#32 ∧ encode (.jal 1 1048574#21) = 0x7FFFF0EF#32 := by decide

/-- V-D5, V-D9: the fields of a word, read whatever its format. -/
theorem test_fields :
    (fieldsOf 0xFFF00093#32).imm = 0xFFFFFFFF#32 ∧ (fieldsOf 0xFFF00093#32).jimm = 0xFFF00FFE#32 ∧
      (fieldsOf 0xFFF00093#32).rs2 = 31 ∧ (fieldsOf 0xFFF00093#32).funct7 = 0x7F#7 ∧
      (fieldsOf 0x7FFFF0EF#32).jimm = 0x000FFFFE#32 ∧ (fieldsOf 0x7FFFF0EF#32).imm = 0x000007FF#32 ∧
      (fieldsOf 0x7FFFF0EF#32).rd = 1 ∧ (fieldsOf 0x7FFFF0EF#32).funct3 = 7#3 := by decide

/-- V-E4 to V-E13: words of no supported opcode. -/
theorem test_decode_unknownOpcode :
    ([0x00000000#32, 0xFFFFFFFF#32, 0x000000B7#32, 0x00008067#32, 0x00208463#32, 0x00112023#32, 0x00000073#32,
      0x00100073#32, 0x0000000F#32, 0x00000001#32].all fun w => decide (decode w = .error .unknownOpcode)) = true := by
  decide

/-- V-E14 to V-E16. -/
theorem test_decode_unknownFunct3 :
    ([0x00003083#32, 0x00006083#32, 0x00007083#32].all fun w => decide (decode w = .error .unknownFunct3)) = true := by
  decide

/-- V-E17 to V-E22. -/
theorem test_decode_invalidFunct7 :
    ([0x022081B3#32, 0x402091B3#32, 0x4020E1B3#32, 0x41F09093#32, 0x0200D093#32, 0x6000D093#32].all fun w =>
      decide (decode w = .error .invalidFunct7)) = true := by decide

/-- R201, R301: four bytes, the lowest first, make the word; fewer make none. -/
theorem test_decodeBytes :
    decodeBytes [0x93#8, 0x00#8, 0x50#8, 0x00#8, 0xFF#8] = .ok (.addi 1 0 5#12, [0xFF#8]) ∧
      decodeBytes [0x93#8, 0x00#8, 0x50#8] = .error .tooFewBytes ∧
      decodeTableWord 32 0x00500093 = some (.addi 1 0 5#12) ∧ decodeTableWord 32 0x00000073 = none := by decide

/-! ### One step of each instruction -/

/-- Reset, with some registers set. -/
def start (regs : List (RegIdx × Word)) : State := regs.foldl (fun s p => s.writeReg p.1 p.2) State.reset

/-- The memory of V-L1 to V-L12. -/
def dataMemory : Memory := (Memory.write32 [] 0x2000 0x80000093#32).write32 0x2004 0x12345678#32

/-- What a reader sees of an outcome: a register, the pc and the status of the next state. -/
def view (r : RegIdx) : Host.Outcome State Fault Refusal → Option (Word × Word × Status)
  | .next t => some (t.readReg r, t.pc, t.status)
  | .fault _ => none
  | .refused _ => none

/-- One step of the word `w` at the reset pc, from some registers and memory. -/
def stepWord (regs : List (RegIdx × Word)) (mem : Memory) (w : Nat) : Host.Outcome State Fault Refusal :=
  step (State.withFetchWord { start regs with mem := mem } 32 w)

/-- The view of a successful step: the register's value, and the pc advanced by 4. -/
def ok (v : Word) : Option (Word × Word × Status) := some (v, 0x1004#32, .run)

/-- The view of a failed step at the reset pc: the register's old value, the pc unchanged, the error. -/
def failed (v : Word) (e : ExecError) : Option (Word × Word × Status) := some (v, 0x1000#32, .halted e)

/-- V-R1. -/
theorem test_add_wraps : view 3 (stepWord [(1, 0xFFFFFFFF#32), (2, 0x00000001#32)] [] 0x002081B3) =
    ok 0x00000000#32 := by decide

/-- V-R4. -/
theorem test_sub_wraps : view 3 (stepWord [(1, 0x00000000#32), (2, 0x00000001#32)] [] 0x402081B3) =
    ok 0xFFFFFFFF#32 := by decide

/-- V-R5. -/
theorem test_sub_signed_edge : view 3 (stepWord [(1, 0x80000000#32), (2, 0x00000001#32)] [] 0x402081B3) =
    ok 0x7FFFFFFF#32 := by decide

/-- V-R6. -/
theorem test_sll_low_five_bits : view 3 (stepWord [(1, 0x00000001#32), (2, 0x00000021#32)] [] 0x002091B3) =
    ok 0x00000002#32 := by decide

/-- V-R7. -/
theorem test_sll_by_32 : view 3 (stepWord [(1, 0x00000001#32), (2, 0x00000020#32)] [] 0x002091B3) =
    ok 0x00000001#32 := by decide

/-- V-R8. -/
theorem test_slt_signed : view 3 (stepWord [(1, 0xFFFFFFFF#32), (2, 0x00000001#32)] [] 0x0020A1B3) =
    ok 0x00000001#32 := by decide

/-- V-R10. -/
theorem test_slt_edge : view 3 (stepWord [(1, 0x80000000#32), (2, 0x7FFFFFFF#32)] [] 0x0020A1B3) =
    ok 0x00000001#32 := by decide

/-- V-R9. -/
theorem test_sltu_unsigned : view 3 (stepWord [(1, 0xFFFFFFFF#32), (2, 0x00000001#32)] [] 0x0020B1B3) =
    ok 0x00000000#32 := by decide

/-- V-R11. -/
theorem test_sltu_x0 : view 3 (stepWord [(2, 0x00000007#32)] [] 0x002031B3) =
    ok 0x00000001#32 := by decide

/-- V-R12. -/
theorem test_xor : view 3 (stepWord [(1, 0xF0F0F0F0#32), (2, 0xFF00FF00#32)] [] 0x0020C1B3) =
    ok 0x0FF00FF0#32 := by decide

/-- V-R13. -/
theorem test_srl : view 3 (stepWord [(1, 0x80000000#32), (2, 0xFFFFFFFF#32)] [] 0x0020D1B3) =
    ok 0x00000001#32 := by decide

/-- V-R14. -/
theorem test_sra_negative : view 3 (stepWord [(1, 0x80000000#32), (2, 0x00000004#32)] [] 0x4020D1B3) =
    ok 0xF8000000#32 := by decide

/-- V-R15. -/
theorem test_sra_positive : view 3 (stepWord [(1, 0x7FFFFFF0#32), (2, 0x00000004#32)] [] 0x4020D1B3) =
    ok 0x07FFFFFF#32 := by decide

/-- V-R16. -/
theorem test_or : view 3 (stepWord [(1, 0xF0F0F0F0#32), (2, 0x0F0F0F0F#32)] [] 0x0020E1B3) =
    ok 0xFFFFFFFF#32 := by decide

/-- V-R17. -/
theorem test_and : view 3 (stepWord [(1, 0xF0F0F0F0#32), (2, 0xFF00FF00#32)] [] 0x0020F1B3) =
    ok 0xF000F000#32 := by decide

/-- V-R18. -/
theorem test_add_x0_discarded : view 0 (stepWord [(1, 0x00000005#32), (2, 0x00000006#32)] [] 0x00208033) =
    ok 0x00000000#32 := by decide

/-- V-I2. -/
theorem test_addi_negative : view 1 (stepWord [] [] 0xFFF00093) =
    ok 0xFFFFFFFF#32 := by decide

/-- V-I3. -/
theorem test_addi_overflow : view 2 (stepWord [(1, 0x7FFFFFFF#32)] [] 0x00108113) =
    ok 0x80000000#32 := by decide

/-- V-I4. -/
theorem test_slti : view 2 (stepWord [(1, 0xFFFFFFFF#32)] [] 0x0000A113) =
    ok 0x00000001#32 := by decide

/-- V-I5. -/
theorem test_slti_negative : view 2 (stepWord [(1, 0xFFFFFFFF#32)] [] 0x8000A113) =
    ok 0x00000000#32 := by decide

/-- V-I6. -/
theorem test_sltiu_negative_pattern : view 2 (stepWord [(1, 0x00000005#32)] [] 0xFFF0B113) =
    ok 0x00000001#32 := by decide

/-- V-I8. -/
theorem test_sltiu_equal : view 2 (stepWord [(1, 0xFFFFFFFF#32)] [] 0xFFF0B113) =
    ok 0x00000000#32 := by decide

/-- V-I9. -/
theorem test_xori : view 2 (stepWord [(1, 0x0000FFFF#32)] [] 0xFFF0C113) =
    ok 0xFFFF0000#32 := by decide

/-- V-I10. -/
theorem test_ori : view 2 (stepWord [(1, 0x00000F00#32)] [] 0x0FF0E113) =
    ok 0x00000FFF#32 := by decide

/-- V-I11. -/
theorem test_ori_negative : view 2 (stepWord [] [] 0x80006113) =
    ok 0xFFFFF800#32 := by decide

/-- V-I12. -/
theorem test_andi : view 2 (stepWord [(1, 0xFFFFFFFF#32)] [] 0x7FF0F113) =
    ok 0x000007FF#32 := by decide

/-- V-I13. -/
theorem test_andi_negative : view 2 (stepWord [(1, 0xFFFFFFFF#32)] [] 0x8000F113) =
    ok 0xFFFFF800#32 := by decide

/-- V-I14. -/
theorem test_slli_31 : view 1 (stepWord [(1, 0x00000001#32)] [] 0x01F09093) =
    ok 0x80000000#32 := by decide

/-- V-I18. -/
theorem test_slli_0 : view 2 (stepWord [(1, 0x12345678#32)] [] 0x00009113) =
    ok 0x12345678#32 := by decide

/-- V-I15. -/
theorem test_srli_31 : view 2 (stepWord [(1, 0x80000000#32)] [] 0x01F0D113) =
    ok 0x00000001#32 := by decide

/-- V-I16. -/
theorem test_srai_4 : view 2 (stepWord [(1, 0x80000000#32)] [] 0x4040D113) =
    ok 0xF8000000#32 := by decide

/-- V-I17. -/
theorem test_srai_31 : view 2 (stepWord [(1, 0x80000000#32)] [] 0x41F0D113) =
    ok 0xFFFFFFFF#32 := by decide

/-- V-L1. -/
theorem test_lb : view 2 (stepWord [(1, 0x00002000#32)] dataMemory 0x00008103) =
    ok 0xFFFFFF93#32 := by decide

/-- V-L17. -/
theorem test_lb_wraps : view 2 (stepWord [(1, 0xFFFFFFFF#32)] [] 0x00108103) =
    ok 0x00000000#32 := by decide

/-- V-L2. -/
theorem test_lbu : view 2 (stepWord [(1, 0x00002000#32)] dataMemory 0x0000C103) =
    ok 0x00000093#32 := by decide

/-- V-L20. -/
theorem test_lbu_reads_the_program : view 2 (stepWord [(1, 0x00001000#32)] [] 0x0000C103) =
    ok 0x00000003#32 := by decide

/-- V-L3. -/
theorem test_lh : view 2 (stepWord [(1, 0x00002000#32)] dataMemory 0x00209103) =
    ok 0xFFFF8000#32 := by decide

/-- V-L4. -/
theorem test_lhu : view 2 (stepWord [(1, 0x00002000#32)] dataMemory 0x0020D103) =
    ok 0x00008000#32 := by decide

/-- V-L16. -/
theorem test_lhu_top : view 2 (stepWord [(1, 0x0000FFFE#32)] [] 0x0000D103) =
    ok 0x00000000#32 := by decide

/-- V-L11. -/
theorem test_lw_base_is_destination : view 1 (stepWord [(1, 0x00002000#32)] dataMemory 0x0040A083) =
    ok 0x12345678#32 := by decide

/-- V-L7. -/
theorem test_lh_misaligned : view 2 (stepWord [(1, 0x00002000#32)] dataMemory 0x00109103) =
    failed 0x00000000#32 (.invalidMemoryAddress 0x1000#32 0x2001#32) := by decide

/-- V-L21. -/
theorem test_lw_x0_misaligned : view 1 (stepWord [(1, 0x00002000#32)] [] 0x0020A003) =
    failed 0x00002000#32 (.invalidMemoryAddress 0x1000#32 0x2002#32) := by decide

/-- V-J3. -/
theorem test_jal_unaligned : view 1 (stepWord [] [] 0x006000EF) =
    failed 0x00000000#32 (.unalignedJump 0x1000#32 0x006000EF#32) := by decide

/-- V-E4. -/
theorem test_zero_word : view 1 (stepWord [] [] 0x00000000) =
    failed 0x00000000#32 (.unknownOpcode 0x1000#32 0#32) := by decide

/-- V-E14. -/
theorem test_load_funct3 : view 1 (stepWord [] [] 0x00003083) =
    failed 0x00000000#32 (.unknownFunct3 0x1000#32 0x00003083#32) := by decide

/-- V-E17. -/
theorem test_mul_funct7 : view 3 (stepWord [] [] 0x022081B3) =
    failed 0x00000000#32 (.invalidFunct7 0x1000#32 0x022081B3#32) := by decide

/-- V-J2: the link is the `jal`'s own address; the target is relative to it. -/
theorem test_jal_back :
    view 5 (step (State.withFetchWord { start [] with pc := 0x1010#32 } 32 0xFF1FF2EF)) =
      some (0x1010#32, 0x1000#32, .run) := by decide

/-- V-E1 to V-E3: a pc outside the range. -/
theorem test_pc_out_of_range :
    ([0x00000FFC#32, 0x00010000#32, 0xFFF00000#32].all fun pc =>
      decide (view 0 (step { start [] with pc := pc }) = some (0#32, pc, .halted (.pcOutOfBounds pc)))) = true := by
  decide

/-- R402, R403: the pcs whose fetch passes the memory's end. -/
theorem test_fetch_past_the_end :
    ([0xFFFD#32, 0xFFFE#32, 0xFFFF#32].all fun pc =>
      decide (view 0 (step { start [] with pc := pc }) = some (0#32, pc, .halted (.invalidMemoryAccess pc)))) =
        true := by decide

/-- R410, U15: no step is enabled in `HALTED`. -/
theorem test_step_while_halted :
    step { start [] with status := .halted (.unknownOpcode 0x1000#32 0#32) } = .fault .halted := by
  rfl

/-- The codes of R701. -/
theorem test_error_codes : [ErrorKind.pcOutOfBounds, .invalidMemoryAccess, .invalidMemoryAddress, .unknownOpcode,
    .unknownFunct3, .invalidFunct7, .unalignedJump].map ErrorKind.code = [1, 2, 3, 4, 5, 6, 7] := by decide

/-! ### The assembler -/

/-- V-A1, V-A2, V-A10, V-A14, V-A19, V-A20, V-A23, V-A27, V-A28. -/
theorem test_assembles : assemble ["addi x1, x0, 5", "addi x1,x0,5", "addi x05 x0 1", "lw x1 4(x2)", "lw x1 -2048(x2)",
    "jal x1 1048574", "jal x1 -1048576", "sub x3, x1, x2", "srai x1, x1, 31"] =
    .ok [0x00500093#32, 0x00500093#32, 0x00100293#32, 0x00412083#32, 0x80012083#32, 0x7FFFF0EF#32, 0x800000EF#32,
      0x402081B3#32, 0x41F0D093#32] := by decide

/-- The error kind of a line on its own. -/
def errorOf (line : String) : Option AsmErrorKind :=
  match assemble [line] with
  | .ok _ => none
  | .error e => some e.kind

/-- V-A3 to V-A9. -/
theorem test_assembly_errors_names :
    errorOf "ADDI x1 x0 5" = some .unknownMnemonic ∧ errorOf "nop" = some .unknownMnemonic ∧
      errorOf "addi x1 x0" = some .badOperandCount ∧ errorOf "addi x1 x0 5 # five" = some .badOperandCount ∧
      errorOf "# comment" = some .unknownMnemonic ∧ errorOf "addi x32 x0 1" = some .badRegister ∧
      errorOf "addi a0 x0 1" = some .badRegister := by decide

/-- V-A11 to V-A13, V-S4, V-S5. -/
theorem test_assembly_errors_numbers :
    errorOf "addi x1 x0 0x10" = some .numericParseError ∧ errorOf "addi x1 x0 +5" = some .numericParseError ∧
      errorOf "srli x1 x1 -1" = some .shiftAmountOutOfRange ∧
      errorOf "slli x1 x1 32" = some .shiftAmountOutOfRange ∧
      errorOf "addi x1 x0 2048" = some .immediateOutOfRange ∧
      errorOf "addi x1 x0 -2049" = some .immediateOutOfRange := by
  decide

/-- V-A15 to V-A18. -/
theorem test_assembly_errors_loads :
    errorOf "lw x1 (x2)" = some .badLoadSyntax ∧ errorOf "lw x1 4( x2)" = some .badOperandCount ∧
      errorOf "lw x1 4(x32)" = some .badRegister ∧ errorOf "lw x1 2048(x2)" = some .immediateOutOfRange := by decide

/-- V-A21, V-A22, V-A24 to V-A26. -/
theorem test_assembly_errors_jumps :
    errorOf "jal x1 1048575" = some .badJumpOffset ∧ errorOf "jal x1 1048576" = some .badJumpOffset ∧
      errorOf "jal x1 -1048578" = some .badJumpOffset ∧ errorOf "jal x1 loop" = some .numericParseError ∧
      errorOf "jal 8" = some .badOperandCount := by decide

/-- 95_test_vectors.md section 2.7, blank lines (R351). -/
theorem test_blank_lines :
    assemble ["addi x1 x0 5", "", "   ", "add x3 x1 x1"] = .ok [0x00500093#32, 0x001081B3#32] := by decide

/-! ### Witnesses: for each obligation with hypotheses, a case that meets them; each clause at a boundary -/

/-- `s` with the word `w` at `pc`, its memory otherwise reset. -/
def placed (pc : Word) (w : Word) : State :=
  { start [(1, 0xFFFF#32), (2, 0x10000#32)] with pc := pc, mem := Memory.write32 [] pc.toNat w }

theorem witness_ResetAndLoadedValues :
    (List.replicate 15360 (0x00000013#32 : Word)).length ≤ 15360 ∧ (0xFFFF - 0x1000) / 4 < 15360 ∧
      (0x1000 - 0x1000) / 4 < 15360 ∧ 0x0FFF < 0x1000 ∧
      0x1000 + 4 * ([] : List Word).length ≤ 0x1000 ∧ 0xFFFF < 0x10000 := by
  rw [List.length_replicate]; decide

theorem witness_OverlongProgramIsRefused : 15360 < (List.replicate 15361 (0x00000013#32 : Word)).length := by
  rw [List.length_replicate]; decide

theorem witness_MultiByteReadsAreLittleEndian :
    (placed 0xFFFC#32 0x00500093#32).pc.toNat = 0xFFFC ∧ 0x1000 ≤ 0xFFFC ∧ 0xFFFC + 4 ≤ 0x10000 ∧
      0xFFFC % 4 = 0 ∧ (effectiveAddress (placed 0xFFFC#32 0x00500093#32) 1 (-3#12)).toNat = 0xFFFC ∧
      (effectiveAddress (placed 0xFFFC#32 0x00500093#32) 1 (-1#12)).toNat = 0xFFFE ∧ 0xFFFE % 2 = 0 ∧
      0xFFFE + 2 ≤ 0x10000 ∧ (placed 0xFFFC#32 0x00500093#32).mem.wf = true := by decide

theorem witness_NarrowReadsOfAStoredWord :
    Memory.wf [(0xFFFC, 0x13#8)] = true ∧ 0xFFFC + 4 ≤ 0x10000 ∧ 0xFFFB < 0xFFFC := by decide

theorem witness_CanonicalMemoryIsFixedByItsBytes :
    Memory.wf [(0, 0x13#8), (0xFFFF, 0x80#8)] = true ∧
      ∀ a < 0x10000, Memory.read [(0, 0x13#8), (0xFFFF, 0x80#8)] a = Memory.read [(0, 0x13#8), (0xFFFF, 0x80#8)] a :=
  ⟨by decide, fun _ _ => rfl⟩

/-- V-D3, V-D4, V-D5: the three immediates the rule gives. -/
theorem witness_DecoderExtractsFields :
    (0x7FF00093#32).toNat / 2 ^ 20 = 0x7FF ∧ (0x80000093#32).toNat / 2 ^ 20 = 0x800 ∧
      (0xFFF00093#32).toNat / 2 ^ 20 = 0xFFF := by decide

theorem witness_DecodeOfEncodeIsTheInstruction :
    (Instr.jal 31 1048574#21).wellFormed = true ∧ (Instr.srai 31 31 31#5).wellFormed = true := by decide

theorem witness_EncodeOfDecodeIsTheWord : decode 0x800000EF#32 = .ok (.jal 1 (-1048576#21)) := by decide

theorem witness_OtherOpcodesRaiseUnknownOpcode :
    (0x00000073#32).toNat % 2 ^ 7 ∈ [0x37, 0x17, 0x67, 0x63, 0x23, 0x0F, 0x73] ∧
      (0x00000073#32).toNat % 2 ^ 7 ≠ 0x33 ∧
      (0x00000073#32).toNat % 2 ^ 7 ≠ 0x13 ∧ (0x00000073#32).toNat % 2 ^ 7 ≠ 0x03 ∧
      (0x00000073#32).toNat % 2 ^ 7 ≠ 0x6F ∧ (placed 0xFFFC#32 0x00000073#32).status = .run ∧
      0x1000 ≤ (placed 0xFFFC#32 0x00000073#32).pc.toNat ∧
      (placed 0xFFFC#32 0x00000073#32).pc.toNat + 4 ≤ 0x10000 ∧
      (placed 0xFFFC#32 0x00000073#32).mem.read32 0xFFFC = 0x00000073#32 ∧
      (0x00000001#32).toNat % 4 ≠ 3 := by decide

theorem witness_EveryWordWithOpcode6FIsJal :
    (0xFFFFFFEF#32).toNat % 2 ^ 7 = 0x6F ∧ (0x0000006F#32).toNat % 2 ^ 7 = 0x6F := by decide

/-- The words of V-R1 to V-R17 and V-I14 to V-I16 under their rows. -/
theorem witness_FunctRowsDecode : ([(0x002081B3#32, 0x00000033#32), (0x402081B3#32, 0x40000033#32),
    (0x002091B3#32, 0x00001033#32), (0x0020A1B3#32, 0x00002033#32), (0x0020B1B3#32, 0x00003033#32),
    (0x0020C1B3#32, 0x00004033#32), (0x0020D1B3#32, 0x00005033#32), (0x4020D1B3#32, 0x40005033#32),
    (0x0020E1B3#32, 0x00006033#32), (0x0020F1B3#32, 0x00007033#32), (0x01F09093#32, 0x00001013#32),
    (0x01F0D113#32, 0x00005013#32), (0x4040D113#32, 0x40005013#32)].all fun p =>
      p.1 &&& 0xFE00707F#32 == p.2) = true := by decide

/-- The words of V-I1 to V-I12, V-L1 to V-L5 and V-J1 under their rows. -/
theorem witness_ImmediateRowsDecode : ([(0xFFF00093#32, 0x00000013#32), (0x8000A113#32, 0x00002013#32),
    (0xFFF0B113#32, 0x00003013#32), (0xFFF0C113#32, 0x00004013#32), (0x0FF0E113#32, 0x00006013#32),
    (0x7FF0F113#32, 0x00007013#32), (0x00008103#32, 0x00000003#32), (0x00209103#32, 0x00001003#32),
    (0x0040A103#32, 0x00002003#32), (0x0000C103#32, 0x00004003#32), (0x0020D103#32, 0x00005003#32)].all
    fun p => p.1 &&& 0x0000707F#32 == p.2) = true ∧ 0x008000EF#32 &&& 0x0000007F#32 = 0x0000006F#32 := by decide

/-- `x1 = 0xFFFF`, `x2 = 0x10000`: the last address in memory and the first beyond it. -/
theorem witness_ByteLoadsReadOneByte :
    (loadAddress ((placed 0x1000#32 0#32).readReg 1) 0#12).toNat < 0x10000 ∧
      0x10000 ≤ (loadAddress ((placed 0x1000#32 0#32).readReg 2) 0#12).toNat := by decide

theorem witness_HalfwordLoadsReadTwoBytes :
    (loadAddress ((placed 0x1000#32 0#32).readReg 1) (-1#12)).toNat = 0xFFFE ∧ 0xFFFE < 0x10000 ∧ 0xFFFE % 2 = 0 ∧
      (loadAddress ((placed 0x1000#32 0#32).readReg 1) 0#12).toNat % 2 ≠ 0 ∧
      0x10000 ≤ (loadAddress ((placed 0x1000#32 0#32).readReg 2) 0#12).toNat := by decide

theorem witness_WordLoadReadsFourBytes :
    (loadAddress ((placed 0x1000#32 0#32).readReg 1) (-3#12)).toNat = 0xFFFC ∧ 0xFFFC < 0x10000 ∧ 0xFFFC % 4 = 0 ∧
      (loadAddress ((placed 0x1000#32 0#32).readReg 1) (-1#12)).toNat % 4 ≠ 0 ∧
      0x10000 ≤ (loadAddress ((placed 0x1000#32 0#32).readReg 2) 0#12).toNat := by decide

theorem witness_MisalignedLoadsFail :
    (effectiveAddress (placed 0x1000#32 0#32) 1 0#12).toNat = 0xFFFF ∧ 0xFFFF < 0x10000 ∧ 0xFFFF % 2 ≠ 0 ∧
      (effectiveAddress (placed 0x1000#32 0#32) 1 (-1#12)).toNat = 0xFFFE ∧ 0xFFFE + 2 ≤ 0x10000 ∧
      0xFFFE % 2 = 0 ∧ 0xFFFE % 4 ≠ 0 ∧
      (effectiveAddress (placed 0x1000#32 0#32) 1 (-3#12)).toNat = 0xFFFC ∧ 0xFFFC + 4 ≤ 0x10000 ∧
      0xFFFC % 4 = 0 := by decide

theorem witness_JalLinksItsOwnAddress :
    (1048572#21 : BitVec 21).toInt % 4 = 0 ∧ (1048574#21 : BitVec 21).toInt % 4 ≠ 0 := by
  decide

/-- `jal x1, -4` at `0x1000` and `jal x1, 4` at `0xFFFC`: the targets next to the range, below and above. -/
theorem witness_OutOfRangeJumpFailsAtTheNextStep :
    (placed 0x1000#32 0xFFDFF0EF#32).status = .run ∧
      decode ((placed 0x1000#32 0xFFDFF0EF#32).mem.read32 0x1000) = .ok (.jal 1 (-4#21)) ∧
      (-4#21 : BitVec 21).toInt % 4 = 0 ∧ (BitVec.ofInt 32 (0x1000 + (-4#21 : BitVec 21).toInt)).toNat = 0x0FFC ∧
      decode ((placed 0xFFFC#32 0x004000EF#32).mem.read32 0xFFFC) = .ok (.jal 1 4#21) ∧
      (BitVec.ofInt 32 (0xFFFC + (4#21 : BitVec 21).toInt)).toNat = 0x10000 ∧
      (placed 0xFFFC#32 0x004000EF#32).pc.toNat + 4 ≤ 0x10000 ∧
      0x1000 ≤ (placed 0x1000#32 0xFFDFF0EF#32).pc.toNat := by decide

theorem witness_ArithmeticLaws : (1 : RegIdx) ≠ 0 ∧ (31 : RegIdx) ≠ 0 := by decide

theorem witness_StepRunsTheDecodedInstruction :
    (placed 0xFFFC#32 0x00500093#32).status = .run ∧ 0x1000 ≤ (placed 0xFFFC#32 0x00500093#32).pc.toNat ∧
      (placed 0xFFFC#32 0x00500093#32).pc.toNat + 4 ≤ 0x10000 ∧
      decode ((placed 0xFFFC#32 0x00500093#32).mem.read32 (placed 0xFFFC#32 0x00500093#32).pc.toNat) =
        .ok (.addi 1 0 5#12) := by decide

theorem witness_PcOutsideTheRangeFails :
    (placed 0x0FFF#32 0#32).status = .run ∧ (placed 0x0FFF#32 0#32).pc.toNat < 0x1000 ∧
      0x10000 ≤ (placed 0x10000#32 0#32).pc.toNat ∧ 0x1000 ≤ (placed 0x1000#32 0#32).pc.toNat ∧
      (placed 0xFFFF#32 0#32).pc.toNat < 0x10000 ∧
      (view 0 (step (placed 0x1000#32 0#32))).isSome = true ∧
      (view 0 (step (placed 0xFFFF#32 0#32))).isSome = true := by decide

theorem witness_FetchPastTheEndFailsAndIsUnreachable :
    (placed 0xFFFC#32 0#32).pc.toNat + 4 ≤ 0x10000 ∧ (placed 0xFFFD#32 0#32).status = .run ∧
      0x1000 ≤ (placed 0xFFFD#32 0#32).pc.toNat ∧ 0x10000 < (placed 0xFFFD#32 0#32).pc.toNat + 4 ∧
      (placed 0xFFFF#32 0#32).pc.toNat < 0x10000 ∧
      Reachable [0x00500093#32] (State.withFetchWord State.reset 32 0x00500093) :=
  ⟨by decide, by decide, by decide, by decide, by decide, .start (by decide)⟩

theorem witness_StepIsEnabledExactlyInRun :
    (placed 0x1000#32 0#32).status = .run ∧
      (State.raise (placed 0x1000#32 0#32) (.unknownOpcode 0x1000#32 0#32)).status =
        .halted (.unknownOpcode 0x1000#32 0#32) := by decide

/-- The zero word fails (V-E4). -/
theorem witness_FailingStepChangesOnlyTheStatus :
    ∃ t, step (placed 0x1000#32 0#32) = .next t ∧ t.status ≠ .run := ⟨_, rfl, by decide⟩

theorem witness_SuccessfulStepWritesOneRegister :
    ∃ t, step (placed 0x1000#32 0x00500093#32) = .next t ∧ t.status = .run := ⟨_, rfl, by decide⟩

theorem witness_PcAdvancesByFourOrByTheOffset :
    (∃ t, step (placed 0xFFFC#32 0x00500093#32) = .next t ∧ t.status = .run ∧
        opcodeNat 0x00500093#32 ≠ 0x6F) ∧
      (∃ t, step (placed 0x1000#32 0x800000EF#32) = .next t ∧ t.status = .run ∧
        opcodeNat 0x800000EF#32 = 0x6F) ∧
      ∃ t, step (placed 0x1000#32 0x006000EF#32) = .next t ∧ t.status ≠ .run :=
  ⟨⟨_, rfl, by decide, by decide⟩, ⟨_, rfl, by decide, by decide⟩, ⟨_, rfl, by decide⟩⟩

/-- A state in `RUN` for the first test of R720, for its last, and one in which no test fails. -/
theorem witness_StepFailsExactlyWithTheFirstFailingTest :
    (placed 0x0FFC#32 0#32).status = .run ∧ (placed 0x1000#32 0x006000EF#32).status = .run ∧
      (placed 0x1000#32 0x00500093#32).status = .run := by decide

/-- Two states that read alike and differ in the slot of `x0`, which nothing reads. -/
theorem witness_StepDependsOnlyOnWhatIsRead :
    let s := placed 0x1000#32 0x00500093#32
    let s' := { s with x := s.x.set 0 7#32 }
    s.status = .run ∧ s'.status = .run ∧ s.pc = s'.pc ∧ (∀ r, s.readReg r = s'.readReg r) ∧
      ∀ a, s.mem.read a = s'.mem.read a := ⟨by decide, by decide, rfl, by decide, fun _ => rfl⟩

theorem witness_NothingWritesMemory :
    ∃ t, exec (.lw 2 1 (-3#12)) (placed 0x1000#32 0#32) = .next t ∧ t.status = .run :=
  ⟨_, rfl, by decide⟩

theorem witness_LoadedProgramIsSound : ∃ s, loadProgram [0x00500093#32] State.reset = .ok s ∧ s.pc = 0x1000#32 :=
  ⟨_, rfl, rfl⟩

theorem witness_StepKeepsTheInvariant :
    Inv (placed 0xFFFC#32 0x00500093#32) ∧
      ∃ t, step (placed 0xFFFC#32 0x00500093#32) = .next t ∧ t.pc = 0x10000#32 :=
  ⟨⟨by decide, by decide, by decide, by intro e h; cases h⟩, _, rfl, by decide⟩

theorem witness_ReachedStatesFetchTheLoadedProgram :
    Reachable [0x00500093#32] (State.withFetchWord State.reset 32 0x00500093) ∧
      (State.withFetchWord State.reset 32 0x00500093).pc = BitVec.ofNat 32 (0x1000 + 4 * 0) ∧
      0 < [0x00500093#32].length := ⟨.start (by decide), by decide, by decide⟩

theorem witness_RunsCompose :
    (∃ t, step (placed 0xFFFC#32 0x00500093#32) = .next t) ∧
      (State.raise (placed 0x1000#32 0#32) (.unknownOpcode 0x1000#32 0#32)).status =
        .halted (.unknownOpcode 0x1000#32 0#32) := ⟨⟨_, rfl⟩, by decide⟩

theorem witness_RunEndsAtTheFirstFailure :
    (placed 0x1000#32 0x00500093#32).status = .run ∧ (runSteps 1 (placed 0x1000#32 0x00500093#32)).status = .run ∧
      (runSteps 1 (placed 0x1000#32 0#32)).status ≠ .run := by decide

theorem witness_PlacedWordIsTheNextInstruction :
    (placed 0x1000#32 0x00500093#32).mem.wf = true ∧ decodeTableWord 32 0x006000EF = some (.jal 1 6#21) := by decide

theorem witness_AssembledWordsDecode : assemble ["addi x1 x0 5"] = .ok [0x00500093#32] := by decide

theorem witness_InstructionTextAssembles :
    (Instr.jal 31 (-1048576#21)).wellFormed = true ∧
      instrText (.jal 31 (-1048576#21)) = "jal x31 -1048576" := by decide

theorem witness_AssemblyErrorsCarryTheLine :
    assemble ["addi x1 x0 5", "nop", "ADD"] = .error (asmError .unknownMnemonic "nop") ∧
      (asmError .unknownMnemonic "nop").kind = .unknownMnemonic := by decide

theorem witness_BlankLinesTakeNoSlot :
    (∀ c ∈ " ,\t".toList, isSeparator c = true) ∧ parseLine " ,\t" = .ok none :=
  ⟨List.all_eq_true.1 (by decide), by decide⟩

end Sys2Proof.Tests
end

section
/-! PROOFS. How the pc advances (spec/10_state.md R111): the address a completed instruction leaves in the pc, read off
the instruction, then off its word. -/

namespace Sys2Proof

open Sys2Proof.Machine

/-- The pc after `i` completes in `s`: the jump target for `jal` (R604), the next word for every other instruction. -/
def Instr.successorPc (s : State) : Instr → Word
  | .jal _ offset => jumpTarget s offset
  | _ => s.nextPc

/-! ### One instruction -/

namespace Machine

/-- Everything a load can do. -/
theorem load_retires_or_raises (n : Nat) (value : Memory → Nat → Word) (rd rs1 : RegIdx) (imm : BitVec 12)
    (s : State) :
    (∃ r v, load n value rd rs1 imm s = .next (s.retire r v)) ∨
      ∃ e, load n value rd rs1 imm s = .next (s.raise e) := by
  cases h : loadAddressOk n (effectiveAddress s rs1 imm) with
  | true => exact .inl ⟨_, _, load_of_ok h value rd⟩
  | false => exact .inr ⟨_, load_of_not_ok h value rd⟩

/-- `exec_cases` with the target of the commit named. -/
theorem exec_commits_successorPc_or_raises (i : Instr) (s : State) :
    (∃ rd v, exec i s = .next (s.commit rd v (i.successorPc s))) ∨ ∃ e, exec i s = .next (s.raise e) := by
  cases i with
  | jal rd offset =>
    cases h : jumpAligned offset with
    | true => exact .inl ⟨rd, s.pc, if_pos h⟩
    | false => exact .inr ⟨_, if_neg (by simp [h])⟩
  | lb rd rs1 imm => exact load_retires_or_raises 1 (fun m a => sext (m.read a)) rd rs1 imm s
  | lh rd rs1 imm => exact load_retires_or_raises 2 (fun m a => sext (m.read16 a)) rd rs1 imm s
  | lw rd rs1 imm => exact load_retires_or_raises 4 (fun m a => m.read32 a) rd rs1 imm s
  | lbu rd rs1 imm => exact load_retires_or_raises 1 (fun m a => zext (m.read a)) rd rs1 imm s
  | lhu rd rs1 imm => exact load_retires_or_raises 2 (fun m a => zext (m.read16 a)) rd rs1 imm s
  | _ => exact .inl ⟨_, _, rfl⟩

end Machine

/-! ### The instruction a word decodes to -/

theorem opcode_fieldsOf_eq_iff (w : Word) {n : Nat} (hn : n < 2 ^ 7) :
    (fieldsOf w).opcode = BitVec.ofNat 7 n ↔ opcodeNat w = n := by
  rw [← BitVec.toNat_inj, BitVec.toNat_ofNat, Nat.mod_eq_of_lt hn]
  simp [fieldsOf, opcodeNat]

theorem eq_of_needFunct7Zero_ok {f : Fields} {i j : Instr} (h : needFunct7Zero f i = .ok j) : j = i := by
  unfold needFunct7Zero at h
  split at h <;> simp_all

theorem eq_or_eq_of_pickFunct7_ok {f : Fields} {i0 i1 j : Instr} (h : pickFunct7 f i0 i1 = .ok j) :
    j = i0 ∨ j = i1 := by
  unfold pickFunct7 at h
  split at h
  · simp_all
  · split at h <;> simp_all

theorem successorPc_of_decodeOp {f : Fields} {i : Instr} (h : decodeOp f = .ok i) (s : State) :
    i.successorPc s = s.nextPc := by
  unfold decodeOp at h
  split at h
  case h_1 | h_6 => obtain rfl | rfl := eq_or_eq_of_pickFunct7_ok h <;> rfl
  all_goals obtain rfl := eq_of_needFunct7Zero_ok h; rfl

theorem successorPc_of_decodeOpImm {f : Fields} {i : Instr} (h : decodeOpImm f = .ok i) (s : State) :
    i.successorPc s = s.nextPc := by
  unfold decodeOpImm at h
  split at h
  case h_6 => obtain rfl | rfl := eq_or_eq_of_pickFunct7_ok h <;> rfl
  case h_2 => obtain rfl := eq_of_needFunct7Zero_ok h; rfl
  all_goals cases h; rfl

theorem successorPc_of_decodeLoad {f : Fields} {i : Instr} (h : decodeLoad f = .ok i) (s : State) :
    i.successorPc s = s.nextPc := by
  unfold decodeLoad at h
  split at h <;> cases h <;> rfl

theorem decode_of_opcodeNat_jal {w : Word} (h : opcodeNat w = 0x6F) :
    decode w = .ok (.jal (fieldsOf w).rd (fieldsOf w).jimmBits) := by
  have hop : (fieldsOf w).opcode = 0x6F#7 := (opcode_fieldsOf_eq_iff w (by decide)).2 h
  simp [decode, dispatchFields, decodeJal, hop]

theorem successorPc_of_decode_jal {w : Word} {i : Instr} (hd : decode w = .ok i) (h : opcodeNat w = 0x6F)
    (s : State) : i.successorPc s = s.pc + (fieldsOf w).jimm := by
  rw [decode_of_opcodeNat_jal h] at hd
  cases hd
  rfl

theorem successorPc_of_decode_of_ne_jal {w : Word} {i : Instr} (hd : decode w = .ok i) (h : opcodeNat w ≠ 0x6F)
    (s : State) : i.successorPc s = s.pc + 4#32 := by
  have hop : (fieldsOf w).opcode ≠ 0x6F#7 := mt (opcode_fieldsOf_eq_iff w (by decide)).1 h
  simp only [decode, dispatchFields, if_neg hop] at hd
  split at hd
  · exact successorPc_of_decodeOp hd s
  split at hd
  · exact successorPc_of_decodeOpImm hd s
  split at hd
  · exact successorPc_of_decodeLoad hd s
  · cases hd

/-! ### One step -/

/-- `step_cases` as seen by the pc: a step takes a failure, or commits the successor of the instruction at the pc. -/
theorem Machine.step_raises_or_commits_successorPc {s t : State} (h : step s = .next t) :
    (∃ e, t = s.raise e) ∨
      ∃ i rd v, decode (s.mem.read32 s.pc.toNat) = .ok i ∧ t = s.commit rd v (i.successorPc s) := by
  obtain ⟨-, ⟨e, -, rfl⟩ | ⟨w, e, -, -, rfl⟩ | ⟨w, i, hf, hd, hx⟩⟩ := step_cases h
  · exact .inl ⟨_, rfl⟩
  · exact .inl ⟨_, rfl⟩
  · obtain ⟨-, -, rfl⟩ := (s.fetch_ok_iff w).1 hf
    obtain ⟨rd, v, hc⟩ | ⟨e, hc⟩ := exec_commits_successorPc_or_raises i s
    · exact .inr ⟨i, rd, v, hd, by simpa [hc] using hx.symm⟩
    · exact .inl ⟨e, by simpa [hc] using hx.symm⟩

/-- Settles O38: a failing step keeps the pc, and a completed one commits the successor of its decoded word. -/
theorem pcAdvancesByFourOrByTheOffset : Obligations.PcAdvancesByFourOrByTheOffset := by
  intro s t h w
  obtain ⟨e, rfl⟩ | ⟨i, rd, v, hd, rfl⟩ := step_raises_or_commits_successorPc h
  · simp
  · have hrun : s.status = .run := (step_cases h).1
    refine ⟨fun _ hw => ?_, fun _ hw => ?_, fun hne => ?_⟩
    · exact successorPc_of_decode_of_ne_jal hd hw s
    · exact successorPc_of_decode_jal hd hw s
    · exact absurd ((s.commit_status ..).trans hrun) hne

end Sys2Proof
end

section
/-! PROOFS. Byte order and alignment (spec/20_memory.md R201, R220): multi-byte values as sums of their bytes, the
byte a written word leaves at each address, and what a load does by the alignment of its address. -/

namespace Sys2Proof.Machine

/-! ### Byte order -/

/-- A concatenation as a number: the right part is the least significant. -/
theorem toNat_append_eq_add {n k : Nat} (u : BitVec n) (v : BitVec k) :
    (u ++ v).toNat = v.toNat + 2 ^ k * u.toNat := by
  rw [BitVec.toNat_append, ← Nat.shiftLeft_add_eq_or_of_lt v.isLt, Nat.shiftLeft_eq, Nat.mul_comm, Nat.add_comm]

theorem toNat_halfOfBytes (b0 b1 : Byte) : (halfOfBytes b0 b1).toNat = b0.toNat + 2 ^ 8 * b1.toNat :=
  toNat_append_eq_add b1 b0

theorem toNat_wordOfBytes (b0 b1 b2 b3 : Byte) :
    (wordOfBytes b0 b1 b2 b3).toNat =
      b0.toNat + 2 ^ 8 * b1.toNat + 2 ^ 16 * b2.toNat + 2 ^ 24 * b3.toNat := by
  simp only [wordOfBytes, toNat_append_eq_add]
  omega

theorem toNat_byteOfWord (w : Word) (k : Nat) : (byteOfWord w k).toNat = w.toNat / 2 ^ (8 * k) % 2 ^ 8 := by
  rw [byteOfWord, BitVec.extractLsb'_toNat, Nat.shiftRight_eq_div_pow]

/-- A word written where it fits leaves its byte `k` at `a + k`. -/
theorem Memory.toNat_read_write32_add {m : Memory} (h : m.wf = true) {a : Nat} (ha : a + 4 ≤ Config.memSize)
    (w : Word) {k : Nat} (hk : k < 4) : ((m.write32 a w).read (a + k)).toNat = w.toNat / 2 ^ (8 * k) % 2 ^ 8 := by
  rw [Memory.read_write32 h ha, if_pos (by omega), Nat.add_sub_cancel_left, toNat_byteOfWord]

/-! ### Loads by the alignment of their address -/

theorem exec_lb (rd rs1 : RegIdx) (imm : BitVec 12) (s : State) :
    exec (.lb rd rs1 imm) s = load 1 (fun m a => sext (m.read a)) rd rs1 imm s := rfl

theorem exec_lbu (rd rs1 : RegIdx) (imm : BitVec 12) (s : State) :
    exec (.lbu rd rs1 imm) s = load 1 (fun m a => zext (m.read a)) rd rs1 imm s := rfl

theorem exec_lh (rd rs1 : RegIdx) (imm : BitVec 12) (s : State) :
    exec (.lh rd rs1 imm) s = load 2 (fun m a => sext (m.read16 a)) rd rs1 imm s := rfl

theorem exec_lhu (rd rs1 : RegIdx) (imm : BitVec 12) (s : State) :
    exec (.lhu rd rs1 imm) s = load 2 (fun m a => zext (m.read16 a)) rd rs1 imm s := rfl

theorem exec_lw (rd rs1 : RegIdx) (imm : BitVec 12) (s : State) :
    exec (.lw rd rs1 imm) s = load 4 Memory.read32 rd rs1 imm s := rfl

theorem loadAddressOk_iff (n : Nat) (ea : Word) :
    loadAddressOk n ea = true ↔ ea.toNat + n ≤ Config.memSize ∧ ea.toNat % n = 0 := by
  simp [loadAddressOk]

section
variable {n : Nat} {rs1 : RegIdx} {imm : BitVec 12} {s : State}

/-- An aligned load that fits in memory completes. -/
theorem load_of_aligned (hfit : (effectiveAddress s rs1 imm).toNat + n ≤ Config.memSize)
    (halign : (effectiveAddress s rs1 imm).toNat % n = 0) (value : Memory → Nat → Word) (rd : RegIdx) :
    load n value rd rs1 imm s = .next (s.retire rd (value s.mem (effectiveAddress s rs1 imm).toNat)) :=
  load_of_ok ((loadAddressOk_iff n _).2 ⟨hfit, halign⟩) value rd

theorem load_keeps_status_of_aligned (hfit : (effectiveAddress s rs1 imm).toNat + n ≤ Config.memSize)
    (halign : (effectiveAddress s rs1 imm).toNat % n = 0) (value : Memory → Nat → Word) (rd : RegIdx) :
    ∃ t, load n value rd rs1 imm s = .next t ∧ t.status = s.status :=
  ⟨_, load_of_aligned hfit halign value rd, State.retire_status ..⟩

/-- A misaligned load halts, wherever its address lies. -/
theorem load_halts_of_misaligned (hmis : (effectiveAddress s rs1 imm).toNat % n ≠ 0) (value : Memory → Nat → Word)
    (rd : RegIdx) :
    ∃ t, load n value rd rs1 imm s = .next t ∧
      HaltsWith s t (.invalidMemoryAddress s.pc (effectiveAddress s rs1 imm)) := by
  have hbad : loadAddressOk n (effectiveAddress s rs1 imm) = false :=
    Bool.eq_false_iff.2 fun hok => hmis ((loadAddressOk_iff n _).1 hok).2
  exact ⟨_, load_of_not_ok hbad value rd, haltsWith_raise s _⟩

end

end Sys2Proof.Machine

namespace Sys2Proof

open Sys2Proof.Machine

/-- Settles O4: the reads are sums of their bytes, the fetch and the loads go through them, and a written word is
laid out byte by byte. -/
theorem multiByteReadsAreLittleEndian : Obligations.MultiByteReadsAreLittleEndian := by
  intro m a
  refine ⟨toNat_halfOfBytes _ _, toNat_wordOfBytes _ _ _ _, ?fetch, ?loads, ?write⟩
  case fetch =>
    rintro s rfl rfl hbase hfit
    exact (s.fetch_ok_iff _).2 ⟨hbase, hfit, rfl⟩
  case loads =>
    rintro s rd rs1 imm rfl rfl
    refine ⟨fun halign hfit => ?_, fun halign hfit => ⟨?_, ?_⟩⟩
    · rw [exec_lw, load_of_aligned hfit halign]
    · rw [exec_lh, load_of_aligned hfit halign]
    · rw [exec_lhu, load_of_aligned hfit halign]
  case write => exact fun w hwf hfit k hk => Memory.toNat_read_write32_add hwf hfit w hk

/-- Settles O28: every address is aligned for a byte load, so each load completes or halts by its own alignment. -/
theorem misalignedLoadsFail : Obligations.MisalignedLoadsFail := by
  intro s rd rs1 imm ea
  simp only [List.forall_mem_cons, List.not_mem_nil, false_implies, implies_true, and_true, exec_lb, exec_lbu, exec_lh,
    exec_lhu, exec_lw]
  refine ⟨fun hfit => ?byte, fun hfit halign => ?half, fun hfit halign => ?word, fun hmis => ?halfMisaligned,
    fun hmis => ?wordMisaligned⟩
  case byte =>
    have hbyte := load_keeps_status_of_aligned (n := 1) hfit (Nat.mod_one _)
    exact ⟨hbyte _ rd, hbyte _ rd⟩
  case half =>
    have hhalf := load_keeps_status_of_aligned hfit halign
    exact ⟨hhalf _ rd, hhalf _ rd⟩
  case word => exact load_keeps_status_of_aligned hfit halign _ rd
  case halfMisaligned =>
    have hhalf := load_halts_of_misaligned hmis
    exact ⟨hhalf _ rd, hhalf _ rd⟩
  case wordMisaligned => exact load_halts_of_misaligned hmis _ rd

end Sys2Proof
end

section
/-! PROOFS. The fields of every word (spec/30_encoding.md R311 to R319) as numbers and bit by bit, and what an assembly
error says about the program text (R372). -/

namespace Sys2Proof

open Sys2Proof.Machine

/-! ### Fields as numbers (R311 to R316) -/

theorem toNat_extractLsb'_eq_div_mod (w : Word) (start len : Nat) :
    (w.extractLsb' start len).toNat = w.toNat / 2 ^ start % 2 ^ len := by
  rw [BitVec.extractLsb'_toNat, Nat.shiftRight_eq_div_pow]

/-- A field that ends at the word's top bit needs no mask. -/
theorem toNat_extractLsb'_of_top (w : Word) {start len : Nat} (h : start + len = 32) :
    (w.extractLsb' start len).toNat = w.toNat / 2 ^ start := by
  rw [toNat_extractLsb'_eq_div_mod, Nat.mod_eq_of_lt]
  exact Nat.div_lt_of_lt_mul (by rw [← Nat.pow_add, h]; exact w.isLt)

/-! ### The immediate (R317) -/

/-- The rule's shifts clear the low 20 bits, then copy bit 31 down: bit `i` is `w[20 + i]` while that is in the word. -/
theorem imm_fieldsOf_eq_shifts (w : Word) : (fieldsOf w).imm = ((w >>> 20) <<< 20).sshiftRight 20 := by
  ext i hi
  have hfield : 20 + i < 32 ↔ i < 12 := by omega
  simp [Fields.imm, sext, fieldsOf, BitVec.getElem_signExtend, BitVec.getElem_sshiftRight,
    BitVec.msb_eq_getLsbD_last, hfield]

theorem toInt_imm (f : Fields) : f.imm.toInt = f.immBits.toInt := BitVec.toInt_signExtend_of_le (by decide)

theorem toInt_imm_bounds (f : Fields) : -2048 ≤ f.imm.toInt ∧ f.imm.toInt ≤ 2047 := by
  rw [toInt_imm]
  exact ⟨BitVec.le_toInt f.immBits, Int.le_of_lt_add_one BitVec.toInt_lt⟩

/-- The bits 31:20 of a word fix its immediate. -/
theorem imm_fieldsOf_of_top_bits {w : Word} {n : Nat} (h : w.toNat / 2 ^ 20 = n) :
    (fieldsOf w).imm = sext (BitVec.ofNat 12 n) := by
  have hbits : (fieldsOf w).immBits.toNat = w.toNat / 2 ^ 20 := toNat_extractLsb'_of_top w rfl
  rw [Fields.imm, ← h, ← hbits, BitVec.ofNat_toNat, BitVec.setWidth_eq]

/-! ### The jump offset, bit by bit (R319) -/

/-- The bits of the offset in the order of the rule; from bit 20 on they repeat `w[31]`, the pattern's sign. -/
theorem getLsbD_jimm_fieldsOf (w : Word) {i : Nat} (hi : i < 32) :
    (fieldsOf w).jimm.getLsbD i =
      if i = 0 then false else if i ≤ 10 then w.getLsbD (i + 20) else if i = 11 then w.getLsbD 20
      else if i ≤ 19 then w.getLsbD i else w.getLsbD 31 := by
  simp only [Fields.jimm, sext, fieldsOf, jimmBitsOf, BitVec.getLsbD_signExtend, BitVec.msb_eq_getLsbD_last,
    BitVec.getLsbD_append, BitVec.getLsbD_extractLsb']
  interval_cases i <;> simp

/-- Settles O7: each field is read off its position in the word, the immediate and the jump offset bit by bit. -/
theorem decoderExtractsFields : Obligations.DecoderExtractsFields := by
  intro w
  refine ⟨BitVec.extractLsb'_toNat 0 7 w, toNat_extractLsb'_eq_div_mod w 7 5, toNat_extractLsb'_eq_div_mod w 12 3,
    toNat_extractLsb'_eq_div_mod w 15 5, toNat_extractLsb'_eq_div_mod w 20 5, toNat_extractLsb'_of_top w rfl,
    imm_fieldsOf_eq_shifts w, rfl, toInt_imm_bounds _, imm_fieldsOf_of_top_bits, imm_fieldsOf_of_top_bits,
    imm_fieldsOf_of_top_bits, getLsbD_jimm_fieldsOf w (by decide), ?bits1to10, getLsbD_jimm_fieldsOf w (by decide),
    ?bits12to19, ?bits20to31⟩
  all_goals
    intro i hlo hhi
    simp (disch := omega) only [getLsbD_jimm_fieldsOf, if_pos, if_neg]

/-- Settles O13: opcode 0x6F is dispatched on no other field. -/
theorem everyWordWithOpcode6FIsJal : Obligations.EveryWordWithOpcode6FIsJal :=
  fun _ h => ⟨_, _, decode_of_opcodeNat_jal h⟩

/-! ### Assembly errors (R350, R371, R372) -/

namespace Machine

/-- A text fails at its first line, or that line parses and the rest of the text fails. -/
theorem assemble_cons_eq_error_iff (line : String) (lines : List String) (e : AsmError) :
    assemble (line :: lines) = .error e ↔
      (∃ kind, parseLine line = .error kind ∧ e = asmError kind line) ∨
        (∃ r, parseLine line = .ok r) ∧ assemble lines = .error e := by
  rw [assemble]
  cases parseLine line with
  | error kind => simp [eq_comm]
  | ok r =>
    cases r with
    | none => simp
    | some i => cases assemble lines <;> simp

/-- An assembly error is the error record of a line of the text that fails to parse. -/
theorem exists_bad_line_of_assemble_error {lines : List String} {e : AsmError} (h : assemble lines = .error e) :
    ∃ line ∈ lines, ∃ kind, parseLine line = .error kind ∧ e = asmError kind line := by
  induction lines with
  | nil => cases h
  | cons line lines ih =>
    obtain hbad | ⟨-, hrest⟩ := (assemble_cons_eq_error_iff line lines e).1 h
    · exact ⟨line, List.mem_cons_self, hbad⟩
    · obtain ⟨l, hl, hbad⟩ := ih hrest
      exact ⟨l, List.mem_cons_of_mem line hl, hbad⟩

/-- A text that does not assemble starts no run. -/
theorem submit_of_assemble_error {lines : List String} {e : AsmError} (h : assemble lines = .error e) (n : Nat) :
    submit n lines = .error (.assembly e) := by
  rw [submit, h]

end Machine

/-- Settles O52: the error is the record of a failing line, and that record holds what R372 asks for. -/
theorem assemblyErrorsCarryTheLine : Obligations.AssemblyErrorsCarryTheLine := by
  intro lines e h
  obtain ⟨line, hmem, kind, hbad, rfl⟩ := exists_bad_line_of_assemble_error h
  exact ⟨hmem, hbad, fun hkind => if_pos hkind, submit_of_assemble_error h⟩

end Sys2Proof
end

section
/-! PROOFS. The start of a step (spec/40_execution_cycle.md R402, R403): when the pc check and the fetch fail, that no
later part of a step raises their errors, and that the pc of a run stays a multiple of 4. -/

namespace Sys2Proof

open Sys2Proof.Machine

namespace Machine

/-! ### The pc check and the fetch -/

theorem State.fetch_of_pc_out_of_range {s : State} (h : s.pc.toNat < Config.base ∨ Config.memSize ≤ s.pc.toNat) :
    s.fetch = .error (.pcOutOfBounds s.pc) := by
  have hout : ¬ s.pcInRange = true := fun hin => by
    have := s.pcInRange_iff.1 hin
    omega
  exact if_neg hout

theorem State.fetch_of_past_the_end {s : State} (hin : Config.base ≤ s.pc.toNat ∧ s.pc.toNat < Config.memSize)
    (hend : Config.memSize < s.pc.toNat + 4) : s.fetch = .error (.invalidMemoryAccess s.pc) := by
  have hnone : s.mem.ifetch s.pc = none := if_neg (by omega)
  rw [State.fetch, if_pos (s.pcInRange_iff.2 hin), hnone]

theorem step_halts_of_fetch_error {s : State} {e : ExecError} (hr : s.status = .run) (h : s.fetch = .error e) :
    ∃ t, step s = .next t ∧ HaltsWith s t e :=
  ⟨_, step_of_fetch_error hr h, haltsWith_raise s e⟩

/-! ### Which part of a step raises an error -/

theorem decodeFailure_kind_not_of_fetch (pc w : Word) (e : DecodeError) :
    (decodeFailure pc w e).kind ∉ [ErrorKind.pcOutOfBounds, .invalidMemoryAccess] := by
  cases e <;> simp [decodeFailure, ExecError.kind]

theorem exec_error_kind_not_of_fetch {i : Instr} {s t : State} {e : ExecError} (h : exec i s = .next t)
    (hr : s.status = .run) (he : t.status = .halted e) :
    e.kind ∉ [ErrorKind.pcOutOfBounds, .invalidMemoryAccess] := by
  obtain ⟨rd, v, target, hx⟩ | ⟨ea, hx⟩ | ⟨rd, offset, -, hx⟩ := exec_cases i s <;> cases hx.symm.trans h
  · simp [hr] at he
  · cases he
    simp [ExecError.kind]
  · cases he
    simp [ExecError.kind]

/-- A halting step failed its fetch, or raised neither of the fetch's two kinds of error. -/
theorem step_halted_cases {s t : State} {e : ExecError} (h : step s = .next t) (he : t.status = .halted e) :
    s.fetch = .error e ∨ e.kind ∉ [ErrorKind.pcOutOfBounds, .invalidMemoryAccess] := by
  obtain ⟨hr, ⟨e', hf, rfl⟩ | ⟨w, e', -, -, rfl⟩ | ⟨w, i, -, -, hx⟩⟩ := step_cases h
  · cases he
    exact .inl hf
  · cases he
    exact .inr (decodeFailure_kind_not_of_fetch s.pc w e')
  · exact .inr (exec_error_kind_not_of_fetch hx hr he)

/-- `PcOutOfBounds` is raised by the pc check only. -/
theorem pcInRange_eq_false_of_step_pcOutOfBounds {s t : State} {pc : Word} (h : step s = .next t)
    (he : t.status = .halted (.pcOutOfBounds pc)) : s.pcInRange = false := by
  obtain hf | hkind := step_halted_cases h he
  · obtain ⟨-, hout⟩ | ⟨heq, -⟩ := State.fetch_error hf
    · exact hout
    · cases heq
  · exact absurd List.mem_cons_self hkind

/-- `InvalidMemoryAccess` is raised by a fetch past the memory's end only. -/
theorem pc_past_the_end_of_step_invalidMemoryAccess {s t : State} {pc : Word} (h : step s = .next t)
    (he : t.status = .halted (.invalidMemoryAccess pc)) :
    s.pc.toNat < Config.memSize ∧ Config.memSize < s.pc.toNat + 4 := by
  obtain hf | hkind := step_halted_cases h he
  · obtain ⟨heq, -⟩ | ⟨-, hin, hend⟩ := State.fetch_error hf
    · cases heq
    · exact ⟨(s.pcInRange_iff.1 hin).2, hend⟩
  · exact absurd (List.mem_cons_of_mem _ List.mem_cons_self) hkind

/-! ### The pc of a run is a multiple of 4 (R114) -/

theorem toNat_add_mod_four {u v : Word} (hu : u.toNat % 4 = 0) (hv : v.toNat % 4 = 0) : (u + v).toNat % 4 = 0 := by
  rw [BitVec.toNat_add]
  omega

theorem exec_jal_of_aligned {offset : BitVec 21} (h : jumpAligned offset = true) (rd : RegIdx) (s : State) :
    exec (.jal rd offset) s = .next (s.commit rd s.pc (jumpTarget s offset)) := if_pos h

theorem exec_jal_of_not_aligned {offset : BitVec 21} (h : jumpAligned offset = false) (rd : RegIdx) (s : State) :
    exec (.jal rd offset) s = .next (s.raise (.unalignedJump s.pc (encode (.jal rd offset)))) := if_neg (by simp [h])

/-- Every instruction but `jal` adds 4 to the pc or fails, and `jal` adds an offset it has checked (R602) or fails. -/
theorem exec_keeps_pc_aligned {i : Instr} {s t : State} (h : exec i s = .next t) (ha : s.pc.toNat % 4 = 0) :
    t.pc.toNat % 4 = 0 := by
  have hsuccessor := exec_commits_successorPc_or_raises i s
  cases i with
  | jal rd offset =>
    cases hj : jumpAligned offset with
    | true =>
      cases (exec_jal_of_aligned hj rd s).symm.trans h
      exact toNat_add_mod_four ha (of_decide_eq_true hj)
    | false =>
      cases (exec_jal_of_not_aligned hj rd s).symm.trans h
      exact ha
  | _ =>
    obtain ⟨rd, v, hx⟩ | ⟨e, hx⟩ := hsuccessor <;> cases hx.symm.trans h
    · exact toNat_add_mod_four ha rfl
    · exact ha

theorem step_keeps_pc_aligned {s t : State} (h : step s = .next t) (ha : s.pc.toNat % 4 = 0) : t.pc.toNat % 4 = 0 := by
  obtain ⟨-, ⟨e, -, rfl⟩ | ⟨w, e, -, -, rfl⟩ | ⟨w, i, -, -, hx⟩⟩ := step_cases h
  · exact ha
  · exact ha
  · exact exec_keeps_pc_aligned hx ha

theorem eq_of_loadProgram_ok {words : List Word} {s t : State} (h : loadProgram words s = .ok t) :
    t = { s with mem := s.mem.loadWords Config.base words } := by
  unfold loadProgram at h
  split at h <;> cases h
  rfl

theorem Reachable.pc_aligned {words : List Word} {s : State} (h : Reachable words s) : s.pc.toNat % 4 = 0 := by
  induction h with
  | start hload =>
    cases eq_of_loadProgram_ok hload
    simp
  | step _ hs ih => exact step_keeps_pc_aligned hs ih

end Machine

/-- Settles O33: outside the range the fetch fails at its first test, and no other test of a step raises that error. -/
theorem pcOutsideTheRangeFails : Obligations.PcOutsideTheRangeFails := by
  intro s hr
  refine ⟨fun hout => step_halts_of_fetch_error hr (State.fetch_of_pc_out_of_range hout), ?_⟩
  intro hin t hstep pc hhalt
  have hout := pcInRange_eq_false_of_step_pcOutOfBounds hstep hhalt
  exact absurd (s.pcInRange_iff.2 hin) (Bool.eq_false_iff.1 hout)

/-- Settles O34: a run's pc is a multiple of 4, and the pcs in range whose fetch passes the memory's end are not. -/
theorem fetchPastTheEndFailsAndIsUnreachable : Obligations.FetchPastTheEndFailsAndIsUnreachable := by
  refine ⟨fun s hbase hfit => (s.fetch_ok_iff _).2 ⟨hbase, hfit, rfl⟩, ?fails, ?unreachable⟩
  case fails =>
    intro s hr hbase hlt hend
    exact ⟨by omega, step_halts_of_fetch_error hr (State.fetch_of_past_the_end ⟨hbase, hlt⟩ hend)⟩
  case unreachable =>
    intro words s pc hreach hhalt
    cases hreach with
    | start hload =>
      cases eq_of_loadProgram_ok hload
      cases hhalt
    | step hprev hstep =>
      have haligned := hprev.pc_aligned
      have hpast := pc_past_the_end_of_step_invalidMemoryAccess hstep hhalt
      simp only [Config.memSize] at hpast
      omega

end Sys2Proof
end

section
/-! PROOFS. The arithmetic laws (spec/41_register_alu.md R462): the ALU's wrap-around in both readings, its two
comparisons, its shifts by at most 31, and the register in which each result is read back. -/

namespace Sys2Proof

open Sys2Proof.Machine

namespace Machine

/-! ### The ALU's results -/

theorem toNat_alu_add (a b : Word) : (alu .add a b).toNat = (a.toNat + b.toNat) % 2 ^ 32 := BitVec.toNat_add a b

/-- The library's signed sum is the balanced remainder (`Int.bmod`), which has the same residue. -/
theorem toInt_alu_add_emod (a b : Word) : (alu .add a b).toInt % 2 ^ 32 = (a.toInt + b.toInt) % 2 ^ 32 := by
  rw [alu, BitVec.toInt_add]
  exact Int.bmod_emod

/-- The unsigned difference is an integer's residue: a borrow wraps. -/
theorem toNat_alu_sub (a b : Word) : ((alu .sub a b).toNat : Int) = ((a.toNat : Int) - b.toNat) % 2 ^ 32 := by
  rw [alu, BitVec.toNat_sub]
  omega

theorem toInt_alu_sub_emod (a b : Word) : (alu .sub a b).toInt % 2 ^ 32 = (a.toInt - b.toInt) % 2 ^ 32 := by
  rw [alu, BitVec.toInt_sub]
  exact Int.bmod_emod

theorem boolWord_eq_one_iff (c : Bool) : boolWord c = 1#32 ↔ c = true := by
  cases c <;> decide

theorem alu_slt_eq_one_iff (a b : Word) : alu .slt a b = 1#32 ↔ a.toInt < b.toInt :=
  (boolWord_eq_one_iff _).trans decide_eq_true_iff

theorem alu_sltu_eq_one_iff (a b : Word) : alu .sltu a b = 1#32 ↔ a.toNat < b.toNat :=
  (boolWord_eq_one_iff _).trans decide_eq_true_iff

/-- A shift amount is a 5-bit field. -/
theorem shiftAmount_le (b : Word) : shiftAmount b ≤ 31 := Nat.le_of_lt_succ (b.extractLsb' 0 5).isLt

/-! ### The result in its register -/

theorem State.readReg_retire_self (s : State) {rd : RegIdx} (h : rd ≠ 0) (v : Word) :
    (s.retire rd v).readReg rd = v :=
  (s.readReg_writeReg_self rd v).trans (if_neg h)

/-- An instruction that retires a shift by the ALU's amount completes with a shift by at most 31. -/
theorem completes_of_retires_shift {i : Instr} {s : State} {rd : RegIdx} {shift : Word → Nat → Word} {a b : Word}
    (hrd : rd ≠ 0) (h : exec i s = .next (s.retire rd (shift a (shiftAmount b)))) :
    ∃ t, exec i s = .next t ∧ t.status = s.status ∧ ∃ n ≤ 31, t.readReg rd = shift a n :=
  ⟨_, h, s.retire_status .., shiftAmount b, shiftAmount_le b, s.readReg_retire_self hrd _⟩

end Machine

/-- Settles O31: each instruction retires its ALU result, of which the laws are those of the ALU. -/
theorem arithmeticLaws : Obligations.ArithmeticLaws := by
  intro s rd rs1 rs2 imm shamt hrd a b c
  have retired (v : Word) : (s.retire rd v).readReg rd = v := s.readReg_retire_self hrd v
  simp only [List.forall_mem_cons, List.not_mem_nil, false_implies, implies_true, and_true]
  refine ⟨⟨_, rfl, s.retire_status .., ?addUnsigned, ?addSigned⟩,
    ⟨_, rfl, s.retire_status .., ?subUnsigned, ?subSigned⟩, ⟨_, rfl, ?slt⟩, ⟨_, rfl, ?slti⟩, ⟨_, rfl, ?sltu⟩,
    ⟨_, rfl, ?sltiu⟩, ⟨?sll, ?slli⟩, ⟨?srl, ?srli⟩, ?sra, ?srai⟩
  case addUnsigned => rw [retired, toNat_alu_add]
  case addSigned => rw [retired, toInt_alu_add_emod]
  case subUnsigned => rw [retired, toNat_alu_sub]
  case subSigned => rw [retired, toInt_alu_sub_emod]
  case slt | slti => rw [retired, alu_slt_eq_one_iff]
  case sltu | sltiu => rw [retired, alu_sltu_eq_one_iff]
  case sll | slli | srl | srli | sra | srai => exact completes_of_retires_shift hrd rfl

end Sys2Proof
end

section
/-! PROOFS. The reset contents of the state and what `Load` leaves of them (spec/70_reset_and_hazards.md R802,
spec/20_memory.md R210): the bytes inside and outside a loaded program. -/

namespace Sys2Proof

open Sys2Proof.Machine

namespace Machine

/-! ### The bytes of memory after a load -/

@[simp] theorem Memory.wf_nil : Memory.wf [] = true := rfl

theorem Memory.read_nil (a : Nat) : Memory.read [] a = 0#8 := rfl

/-- Loading changes no byte outside the program. -/
theorem Memory.read_loadWords_of_outside {m : Memory} (hwf : m.wf = true) {a : Nat} {ws : List Word}
    (hfit : a + 4 * ws.length ≤ Config.memSize) {b : Nat} (hout : b < a ∨ a + 4 * ws.length ≤ b) :
    (m.loadWords a ws).read b = m.read b := by
  induction ws generalizing a m with
  | nil => rfl
  | cons w ws ih =>
    rw [List.length_cons] at hfit hout
    have hrest : ((m.write32 a w).loadWords (a + 4) ws).read b = (m.write32 a w).read b :=
      ih (Memory.wf_write32 hwf a w) (by omega) (by omega)
    rw [Memory.loadWords, hrest, Memory.read_write32 hwf (by omega), if_neg (by omega)]

/-- Word `k` of a program loaded at `a` stands at `a + 4k`; the words after it leave it alone. -/
theorem Memory.read_loadWords_add {m : Memory} (hwf : m.wf = true) {a : Nat} {ws : List Word}
    (hfit : a + 4 * ws.length ≤ Config.memSize) {k : Nat} (hk : k < ws.length) {d : Nat} (hd : d < 4) :
    (m.loadWords a ws).read (a + 4 * k + d) = byteOfWord ws[k] d := by
  induction ws generalizing a m k with
  | nil => exact absurd hk (Nat.not_lt_zero k)
  | cons w ws ih =>
    rw [List.length_cons] at hfit hk
    have hwf' : (m.write32 a w).wf = true := Memory.wf_write32 hwf a w
    rw [Memory.loadWords]
    cases k with
    | zero =>
      rw [Memory.read_loadWords_of_outside hwf' (by omega) (by omega), Memory.read_write32 hwf (by omega),
        if_pos (by omega), show a + 4 * 0 + d - a = d by omega, List.getElem_cons_zero]
    | succ k =>
      rw [show a + 4 * (k + 1) + d = a + 4 + 4 * k + d by omega, List.getElem_cons_succ]
      exact ih hwf' (by omega) (by omega)

/-- The same by the byte's address: its distance from `a` gives the word and the byte in it. -/
theorem Memory.toNat_read_loadWords {m : Memory} (hwf : m.wf = true) {a : Nat} {ws : List Word}
    (hfit : a + 4 * ws.length ≤ Config.memSize) {b : Nat} (hab : a ≤ b) (hb : (b - a) / 4 < ws.length) :
    ((m.loadWords a ws).read b).toNat = (ws[(b - a) / 4]).toNat / 2 ^ (8 * ((b - a) % 4)) % 2 ^ 8 := by
  have hsplit : a + 4 * ((b - a) / 4) + (b - a) % 4 = b := by omega
  have hbyte := Memory.read_loadWords_add hwf hfit hb (Nat.mod_lt (b - a) (by decide))
  rw [hsplit] at hbyte
  rw [hbyte, toNat_byteOfWord]

/-! ### `Load` as a whole -/

/-- A program within the loader's capacity is accepted, and its load writes memory only. -/
theorem loadProgram_of_length_le {words : List Word} (h : words.length ≤ Config.maxWords) (s : State) :
    loadProgram words s = .ok { s with mem := s.mem.loadWords Config.base words } := if_pos h

/-- A program within the loader's capacity ends inside memory. -/
theorem base_add_le_memSize {words : List Word} (h : words.length ≤ Config.maxWords) :
    Config.base + 4 * words.length ≤ Config.memSize := by
  simp only [Config.maxWords, Config.base, Config.memSize] at h ⊢
  omega

end Machine

/-- Settles O1: reset lists no byte, and a load writes the program's bytes and nothing else. -/
theorem resetAndLoadedValues : Obligations.ResetAndLoadedValues := by
  refine ⟨State.reset_readReg, rfl, rfl, fun a _ => Memory.read_nil a, fun words hlen => ?_⟩
  have hfit := base_add_le_memSize hlen
  refine ⟨_, loadProgram_of_length_le hlen _, State.reset_readReg, rfl, rfl, fun a ha => ?below,
    fun a ha h => ?inside, fun a ha _ => ?above⟩
  case below => exact Memory.read_loadWords_of_outside Memory.wf_nil hfit (.inl ha)
  case inside => exact Memory.toNat_read_loadWords Memory.wf_nil hfit ha h
  case above => exact Memory.read_loadWords_of_outside Memory.wf_nil hfit (.inr ha)

end Sys2Proof
end

section
/-! PROOFS. The decoder and the encoder are inverse (spec/30_encoding.md R303 to R306, R344). First the words of each
format: packing the fields of a word again gives the word. Then the dispatch tables, one lemma per opcode. -/

namespace Sys2Proof

open Sys2Proof.Machine

/-! ### Packing the fields of a word again -/

/-- The five fields of an R-type or shift-immediate word fill it. -/
theorem encodeR_eq_of_fields {w : Word} {funct7 : BitVec 7} {funct3 : BitVec 3} {opcode : BitVec 7}
    (hf7 : (fieldsOf w).funct7 = funct7) (hf3 : (fieldsOf w).funct3 = funct3) (hop : (fieldsOf w).opcode = opcode) :
    encodeR funct7 (fieldsOf w).shamt (fieldsOf w).rs1 funct3 (fieldsOf w).rd opcode = w := by
  subst hf7 hf3 hop
  refine BitVec.eq_of_getLsbD_eq fun i hi => ?_
  simp only [encodeR, fieldsOf, regBits_regOfBits, BitVec.getLsbD_or, getLsbD_place, BitVec.getLsbD_extractLsb']
  interval_cases i <;> simp only [Nat.reduceLT, Nat.reduceLeDiff, Nat.reduceAdd, Nat.reduceSub, decide_true, decide_false,
    Bool.true_and, Bool.false_and, Bool.and_false, Bool.or_false, Bool.false_or]

/-- The fields of an I-type word fill it. -/
theorem encodeI_eq_of_fields {w : Word} {funct3 : BitVec 3} {opcode : BitVec 7}
    (hf3 : (fieldsOf w).funct3 = funct3) (hop : (fieldsOf w).opcode = opcode) :
    encodeI (fieldsOf w).immBits (fieldsOf w).rs1 funct3 (fieldsOf w).rd opcode = w := by
  subst hf3 hop
  refine BitVec.eq_of_getLsbD_eq fun i hi => ?_
  simp only [encodeI, fieldsOf, regBits_regOfBits, BitVec.getLsbD_or, getLsbD_place, BitVec.getLsbD_extractLsb']
  interval_cases i <;> simp only [Nat.reduceLT, Nat.reduceLeDiff, Nat.reduceAdd, Nat.reduceSub, decide_true, decide_false,
    Bool.true_and, Bool.false_and, Bool.and_false, Bool.or_false, Bool.false_or]

/-- The fields of a J-type word fill it. -/
theorem encodeJ_eq_of_fields {w : Word} {opcode : BitVec 7} (hop : (fieldsOf w).opcode = opcode) :
    encodeJ (fieldsOf w).jimmBits (fieldsOf w).rd opcode = w := by
  subst hop
  refine BitVec.eq_of_getLsbD_eq fun i hi => ?_
  simp only [encodeJ, fieldsOf, jimmBitsOf, regBits_regOfBits, BitVec.getLsbD_or, getLsbD_place,
    BitVec.getLsbD_extractLsb', BitVec.getLsbD_append]
  interval_cases i <;> simp only [Nat.reduceLT, Nat.reduceLeDiff, Nat.reduceAdd, Nat.reduceSub, decide_true, decide_false,
    Bool.true_and, Bool.false_and, Bool.and_false, Bool.or_false, Bool.false_or, if_true, if_false]

/-- The pattern of an even offset is put back together from its stored bits (R306, R319). -/
theorem offset_eq_append {offset : BitVec 21} (h : offset.getLsbD 0 = false) :
    offset.extractLsb' 20 1 ++ offset.extractLsb' 12 8 ++ offset.extractLsb' 11 1 ++ offset.extractLsb' 1 10 ++ 0#1 =
      offset := by
  have hbit : offset[0] = false := h
  refine BitVec.eq_of_getLsbD_eq fun i hi => ?_
  simp only [BitVec.getLsbD_append, BitVec.getLsbD_extractLsb']
  interval_cases i <;> simp [hbit]

/-! ### Decoding a packed word

An R-type word leaves the immediate and the jump offset free, an I-type word the fields it overlays: the verdict of the
dispatch must not depend on them. -/

theorem decode_encodeR_of_dispatch {funct7 : BitVec 7} {rs2 : BitVec 5} {rs1 rd : RegIdx} {funct3 : BitVec 3}
    {opcode : BitVec 7} {r : Except DecodeError Instr}
    (h : ∀ imm jimm, dispatchFields ⟨opcode, rd, funct3, rs1, regOfBits rs2, funct7, imm, rs2, jimm⟩ = r) :
    decode (encodeR funct7 rs2 rs1 funct3 rd opcode) = r := by
  have hfields := fieldsOf_encodeR funct7 rs2 rs1 rd funct3 opcode
  rw [decode]
  generalize fieldsOf (encodeR funct7 rs2 rs1 funct3 rd opcode) = f at hfields ⊢
  obtain ⟨rfl, rfl, rfl, rfl, hrs2, rfl, rfl⟩ := hfields
  rw [← hrs2] at h
  exact h _ _

theorem decode_encodeI_of_dispatch {imm : BitVec 12} {rs1 rd : RegIdx} {funct3 : BitVec 3} {opcode : BitVec 7}
    {r : Except DecodeError Instr}
    (h : ∀ rs2 funct7 shamt jimm, dispatchFields ⟨opcode, rd, funct3, rs1, rs2, funct7, imm, shamt, jimm⟩ = r) :
    decode (encodeI imm rs1 funct3 rd opcode) = r := by
  have hfields := fieldsOf_encodeI imm rs1 rd funct3 opcode
  rw [decode]
  generalize fieldsOf (encodeI imm rs1 funct3 rd opcode) = f at hfields ⊢
  obtain ⟨rfl, rfl, rfl, rfl, rfl⟩ := hfields
  exact h _ _ _ _

/-- Settles O9: each format's word gives its fields back, and on them the dispatch finds the instruction. -/
theorem decodeOfEncodeIsTheInstruction : Obligations.DecodeOfEncodeIsTheInstruction := by
  intro i hi
  cases i with
  | jal rd offset =>
    obtain ⟨hop, hrd, hoffset⟩ := fieldsOf_encodeJ offset rd 0x6F#7
    rw [offset_eq_append (by simpa [Instr.wellFormed] using hi)] at hoffset
    simp [decode, dispatchFields, decodeJal, encode, hop, hrd, hoffset]
  | addi | slti | sltiu | xori | ori | andi | lb | lh | lw | lbu | lhu =>
    exact decode_encodeI_of_dispatch fun _ _ _ _ => rfl
  | _ => exact decode_encodeR_of_dispatch fun _ _ => rfl

/-! ### The word of a decoded instruction, one lemma per opcode -/

theorem needFunct7Zero_eq_ok_iff (f : Fields) (i j : Instr) :
    needFunct7Zero f i = .ok j ↔ f.funct7 = 0x00#7 ∧ j = i := by
  unfold needFunct7Zero
  split <;> simp [*, eq_comm]

theorem pickFunct7_eq_ok_iff (f : Fields) (i0 i1 j : Instr) :
    pickFunct7 f i0 i1 = .ok j ↔ (f.funct7 = 0x00#7 ∧ j = i0) ∨ (f.funct7 = 0x20#7 ∧ j = i1) := by
  unfold pickFunct7
  split
  · simp [*, eq_comm]
  · split <;> simp [*, eq_comm]

theorem funct3_eq_of_toFin_eq {f : Fields} {k : Fin 8} (h : f.funct3.toFin = k) : f.funct3 = BitVec.ofFin k :=
  congrArg BitVec.ofFin h

theorem encode_of_decodeOp {w : Word} {i : Instr} (hop : (fieldsOf w).opcode = 0x33#7)
    (h : decodeOp (fieldsOf w) = .ok i) : i.wellFormed = true ∧ encode i = w := by
  unfold decodeOp at h
  split at h <;> rename_i hf3 <;> replace hf3 := funct3_eq_of_toFin_eq hf3
  case h_1 | h_6 =>
    obtain ⟨hf7, rfl⟩ | ⟨hf7, rfl⟩ := (pickFunct7_eq_ok_iff _ _ _ _).1 h <;>
      exact ⟨rfl, encodeR_eq_of_fields hf7 hf3 hop⟩
  all_goals
    obtain ⟨hf7, rfl⟩ := (needFunct7Zero_eq_ok_iff _ _ _).1 h
    exact ⟨rfl, encodeR_eq_of_fields hf7 hf3 hop⟩

theorem encode_of_decodeOpImm {w : Word} {i : Instr} (hop : (fieldsOf w).opcode = 0x13#7)
    (h : decodeOpImm (fieldsOf w) = .ok i) : i.wellFormed = true ∧ encode i = w := by
  unfold decodeOpImm at h
  split at h <;> rename_i hf3 <;> replace hf3 := funct3_eq_of_toFin_eq hf3
  case h_2 =>
    obtain ⟨hf7, rfl⟩ := (needFunct7Zero_eq_ok_iff _ _ _).1 h
    exact ⟨rfl, encodeR_eq_of_fields hf7 hf3 hop⟩
  case h_6 =>
    obtain ⟨hf7, rfl⟩ | ⟨hf7, rfl⟩ := (pickFunct7_eq_ok_iff _ _ _ _).1 h <;>
      exact ⟨rfl, encodeR_eq_of_fields hf7 hf3 hop⟩
  all_goals
    cases h
    exact ⟨rfl, encodeI_eq_of_fields hf3 hop⟩

theorem encode_of_decodeLoad {w : Word} {i : Instr} (hop : (fieldsOf w).opcode = 0x03#7)
    (h : decodeLoad (fieldsOf w) = .ok i) : i.wellFormed = true ∧ encode i = w := by
  unfold decodeLoad at h
  split at h <;> cases h <;> exact ⟨rfl, encodeI_eq_of_fields (funct3_eq_of_toFin_eq ‹_›) hop⟩

/-- A decoded offset is even: its bit 0 is the appended 0 (R319). -/
theorem getLsbD_zero_jimmBits (w : Word) : (fieldsOf w).jimmBits.getLsbD 0 = false := by
  simp only [fieldsOf, jimmBitsOf, BitVec.getLsbD_append]
  rfl

theorem encode_of_decodeJal {w : Word} {i : Instr} (hop : (fieldsOf w).opcode = 0x6F#7)
    (h : decodeJal (fieldsOf w) = .ok i) : i.wellFormed = true ∧ encode i = w := by
  cases h
  exact ⟨by simpa [Instr.wellFormed] using getLsbD_zero_jimmBits w, encodeJ_eq_of_fields hop⟩

/-- Settles O10: whichever table the opcode selects, the operands it takes are all the bits it does not fix. -/
theorem encodeOfDecodeIsTheWord : Obligations.EncodeOfDecodeIsTheWord := by
  intro w i h
  unfold decode dispatchFields at h
  split at h
  · exact encode_of_decodeOp ‹_› h
  split at h
  · exact encode_of_decodeOpImm ‹_› h
  split at h
  · exact encode_of_decodeLoad ‹_› h
  split at h
  · exact encode_of_decodeJal ‹_› h
  · cases h

end Sys2Proof
end

section
/-! PROOFS. What one step can do to a state and what its failure records (spec/40_execution_cycle.md R406, R407;
spec/60_exceptions.md R710, R711), and that every step keeps the invariant. -/

namespace Sys2Proof

open Sys2Proof.Machine

/-! ### The destination of an instruction -/

/-- The register an instruction writes. -/
def Instr.rd : Instr → RegIdx
  | .add rd _ _ | .sub rd _ _ | .sll rd _ _ | .slt rd _ _ | .sltu rd _ _ => rd
  | .xor rd _ _ | .srl rd _ _ | .sra rd _ _ | .or rd _ _ | .and rd _ _ => rd
  | .addi rd _ _ | .slti rd _ _ | .sltiu rd _ _ | .xori rd _ _ | .ori rd _ _ | .andi rd _ _ => rd
  | .slli rd _ _ | .srli rd _ _ | .srai rd _ _ => rd
  | .lb rd _ _ | .lh rd _ _ | .lw rd _ _ | .lbu rd _ _ | .lhu rd _ _ => rd
  | .jal rd _ => rd

/-- The destination stands in the `rd` field in every format. -/
theorem rd_fieldsOf_encode (i : Instr) : (fieldsOf (encode i)).rd = i.rd := by
  cases i with
  | jal => exact (fieldsOf_encodeJ ..).2.1
  | addi | slti | sltiu | xori | ori | andi | lb | lh | lw | lbu | lhu => exact (fieldsOf_encodeI ..).2.1
  | _ => exact (fieldsOf_encodeR ..).2.1

/-- Bits 11:7 of a word are the destination of the instruction it decodes to (R312). -/
theorem rd_of_decode {w : Word} {i : Instr} (h : decode w = .ok i) : i.rd = Fin.ofNat 32 (w.toNat / 2 ^ 7) := by
  obtain ⟨-, rfl⟩ := encodeOfDecodeIsTheWord w i h
  rw [← rd_fieldsOf_encode]
  exact Fin.ext (toNat_extractLsb'_eq_div_mod _ 7 5)

namespace Machine

/-! ### The diagnostic of a failure -/

/-- What the diagnostic of a failing step in `s` records, whatever the pc: the pc of the step, and the word at it where
it records a word (R711). `ErrorMatches` adds the error that an aligned pc rules out. -/
structure DiagnosticOf (s : State) (e : ExecError) : Prop where
  pc : e.info.pc = s.pc
  word : ∀ pc w, e.info = .atWord pc w → w = s.mem.read32 s.pc.toNat

theorem diagnosticOf_of_fetch_error {s : State} {e : ExecError} (h : s.fetch = .error e) : DiagnosticOf s e := by
  obtain ⟨rfl, -⟩ | ⟨rfl, -⟩ := State.fetch_error h <;> exact ⟨rfl, nofun⟩

theorem diagnosticOf_decodeFailure (s : State) (e : DecodeError) :
    DiagnosticOf s (decodeFailure s.pc (s.mem.read32 s.pc.toNat) e) := by
  cases e <;> exact ⟨rfl, by rintro _ _ ⟨⟩; rfl⟩

theorem diagnosticOf_invalidMemoryAddress (s : State) (ea : Word) :
    DiagnosticOf s (.invalidMemoryAddress s.pc ea) := ⟨rfl, nofun⟩

/-- The word a `jal` builds for its failure is the one that was fetched (R344). -/
theorem diagnosticOf_unalignedJump {s : State} {i : Instr} (h : decode (s.mem.read32 s.pc.toNat) = .ok i) :
    DiagnosticOf s (.unalignedJump s.pc (encode i)) :=
  ⟨rfl, by rintro _ _ ⟨⟩; exact (encodeOfDecodeIsTheWord _ _ h).2⟩

/-! ### One instruction, one step -/

/-- `load_retires_or_raises` with the destination named. -/
theorem load_retires_rd_or_raises (n : Nat) (value : Memory → Nat → Word) (rd rs1 : RegIdx) (imm : BitVec 12)
    (s : State) :
    (∃ v, load n value rd rs1 imm s = .next (s.retire rd v)) ∨
      ∃ e, load n value rd rs1 imm s = .next (s.raise e) := by
  cases h : loadAddressOk n (effectiveAddress s rs1 imm) with
  | true => exact .inl ⟨_, load_of_ok h value rd⟩
  | false => exact .inr ⟨_, load_of_not_ok h value rd⟩

/-- `exec_commits_successorPc_or_raises` with the destination of the commit named. -/
theorem exec_commits_rd_or_raises (i : Instr) (s : State) :
    (∃ v, exec i s = .next (s.commit i.rd v (i.successorPc s))) ∨ ∃ e, exec i s = .next (s.raise e) := by
  cases i with
  | jal rd offset =>
    cases h : jumpAligned offset with
    | true => exact .inl ⟨_, exec_jal_of_aligned h rd s⟩
    | false => exact .inr ⟨_, exec_jal_of_not_aligned h rd s⟩
  | lb | lh | lw | lbu | lhu =>
    simp only [exec_lb, exec_lh, exec_lw, exec_lbu, exec_lhu]
    exact load_retires_rd_or_raises ..
  | _ => exact .inl ⟨_, rfl⟩

/-- An instruction that fails at its own address records the truth. -/
theorem diagnosticOf_of_exec_raises {s : State} {i : Instr} {e : ExecError}
    (hd : decode (s.mem.read32 s.pc.toNat) = .ok i) (hr : s.status = .run) (hx : exec i s = .next (s.raise e)) :
    DiagnosticOf s e := by
  obtain ⟨rd, v, target, h⟩ | ⟨ea, h⟩ | ⟨rd, offset, -, h⟩ := exec_cases i s <;>
    have hstatus := congrArg State.status (Host.Outcome.next.inj (h.symm.trans hx))
  · rw [State.commit_status, hr] at hstatus
    cases hstatus
  · cases hstatus
    exact diagnosticOf_invalidMemoryAddress s ea
  · cases hstatus
    exact diagnosticOf_unalignedJump hd

/-- Everything a step can do: take a failure with a true diagnostic, or commit the destination and the successor of the
instruction at the pc. -/
theorem step_raises_diagnostic_or_commits_rd {s t : State} (h : step s = .next t) :
    (∃ e, t = s.raise e ∧ DiagnosticOf s e) ∨
      ∃ i v, decode (s.mem.read32 s.pc.toNat) = .ok i ∧ t = s.commit i.rd v (i.successorPc s) := by
  obtain ⟨hr, ⟨e, hf, rfl⟩ | ⟨w, e, hf, -, rfl⟩ | ⟨w, i, hf, hd, hx⟩⟩ := step_cases h
  · exact .inl ⟨e, rfl, diagnosticOf_of_fetch_error hf⟩
  · obtain ⟨-, -, rfl⟩ := (s.fetch_ok_iff w).1 hf
    exact .inl ⟨_, rfl, diagnosticOf_decodeFailure s e⟩
  · obtain ⟨-, -, rfl⟩ := (s.fetch_ok_iff w).1 hf
    obtain ⟨v, hc⟩ | ⟨e, hc⟩ := exec_commits_rd_or_raises i s <;> cases hc.symm.trans hx
    · exact .inr ⟨i, v, hd, rfl⟩
    · exact .inl ⟨e, rfl, diagnosticOf_of_exec_raises hd hr hc⟩

theorem commit_status_of_step {s t : State} (h : step s = .next t) (rd : RegIdx) (v target : Word) :
    (s.commit rd v target).status = .run := (s.commit_status ..).trans (step_cases h).1

/-! ### The invariant -/

/-- A pc that is a multiple of 4 rules out the fetch past the memory's end (R222). -/
theorem step_kind_ne_invalidMemoryAccess {s t : State} {e : ExecError} (h : step s = .next t)
    (ha : s.pc.toNat % 4 = 0) (he : t.status = .halted e) : e.kind ≠ .invalidMemoryAccess := by
  cases e with
  | invalidMemoryAccess pc =>
    have hpast := pc_past_the_end_of_step_invalidMemoryAccess h he
    simp only [Config.memSize] at hpast
    omega
  | _ => nofun

end Machine

/-- Settles O44: a failure changes nothing but the status and records the truth; a commit leaves `x0`'s slot and memory
alone and no halted status. -/
theorem stepKeepsTheInvariant : Obligations.StepKeepsTheInvariant := by
  intro s t hinv h
  have haligned := step_keeps_pc_aligned h hinv.pc_aligned
  obtain ⟨e, rfl, hdiag⟩ | ⟨i, v, -, rfl⟩ := step_raises_diagnostic_or_commits_rd h
  · refine ⟨hinv.x0_zero, haligned, hinv.mem_wf, fun e' he => ?_⟩
    cases he
    exact ⟨hdiag.pc, step_kind_ne_invalidMemoryAccess h hinv.pc_aligned rfl, hdiag.word⟩
  · refine ⟨(s.writeReg_x_zero ..).trans hinv.x0_zero, haligned, ?_, fun e he => ?_⟩
    · rw [State.commit_mem]
      exact hinv.mem_wf
    · cases (commit_status_of_step h ..).symm.trans he

/-- Settles O36: only a failure leaves `RUN`. -/
theorem failingStepChangesOnlyTheStatus : Obligations.FailingStepChangesOnlyTheStatus := by
  intro s t h hne
  obtain ⟨e, rfl, hdiag⟩ | ⟨i, v, -, rfl⟩ := step_raises_diagnostic_or_commits_rd h
  · exact ⟨e, haltsWith_raise s e, hdiag.pc⟩
  · exact absurd (commit_status_of_step h ..) hne

/-- Settles O37: a step that stays in `RUN` is a commit to the destination of the decoded word. -/
theorem successfulStepWritesOneRegister : Obligations.SuccessfulStepWritesOneRegister := by
  intro s t h hrun
  obtain ⟨e, rfl, -⟩ | ⟨i, v, hd, rfl⟩ := step_raises_diagnostic_or_commits_rd h
  · cases hrun
  · rw [← rd_of_decode hd]
    exact ⟨v, writes_commit ..⟩

end Sys2Proof
end

section
/-! PROOFS. Runs (spec/40_execution_cycle.md R410, R420, R424): when a step is enabled, what a run keeps, how runs
compose and where they end, and what a run of a loaded program fetches (spec/20_memory.md R250). -/

namespace Sys2Proof

open Sys2Proof.Machine

namespace Machine

/-! ### When a step is enabled (R410) -/

theorem exists_exec_next (i : Instr) (s : State) : ∃ t, exec i s = .next t := by
  obtain ⟨v, h⟩ | ⟨e, h⟩ := exec_commits_rd_or_raises i s <;> exact ⟨_, h⟩

theorem exists_step_next {s : State} (hr : s.status = .run) : ∃ t, step s = .next t := by
  cases hf : s.fetch with
  | error e => exact ⟨_, step_of_fetch_error hr hf⟩
  | ok w =>
    cases hd : decode w with
    | error e => exact ⟨_, step_of_decode_error hr hf hd⟩
    | ok i => rw [step_of_decode hr hf hd]; exact exists_exec_next i s

/-- Where the fetch reaches memory, a step runs what the word there decodes to. -/
theorem step_eq_exec {s : State} {i : Instr} (hr : s.status = .run) (hbase : Config.base ≤ s.pc.toNat)
    (hfit : s.pc.toNat + 4 ≤ Config.memSize) (hd : decode (s.mem.read32 s.pc.toNat) = .ok i) : step s = exec i s :=
  step_of_decode hr ((s.fetch_ok_iff _).2 ⟨hbase, hfit, rfl⟩) hd

/-! ### What a run keeps -/

/-- What every step keeps, a run of any length keeps. -/
theorem runSteps_induction {P : State → Prop} (hstep : ∀ s t, P s → step s = .next t → P t) (n : Nat) {s : State}
    (hs : P s) : P (runSteps n s) := by
  induction n generalizing s with
  | zero => exact hs
  | succ n ih =>
    cases hst : s.status with
    | halted e => rwa [runSteps_of_halted hst]
    | run =>
      obtain ⟨t, ht⟩ := exists_step_next hst
      rw [runSteps_succ ht]
      exact ih (hstep s t hs ht)

theorem exec_mem {i : Instr} {s t : State} (h : exec i s = .next t) : t.mem = s.mem := by
  obtain ⟨v, hx⟩ | ⟨e, hx⟩ := exec_commits_rd_or_raises i s <;> cases hx.symm.trans h
  · exact State.commit_mem ..
  · rfl

theorem step_mem {s t : State} (h : step s = .next t) : t.mem = s.mem := by
  obtain ⟨e, rfl, -⟩ | ⟨i, v, -, rfl⟩ := step_raises_diagnostic_or_commits_rd h
  · rfl
  · exact State.commit_mem ..

/-! ### How a run goes on -/

theorem runSteps_add (m n : Nat) (s : State) : runSteps (m + n) s = runSteps n (runSteps m s) := by
  induction m generalizing s with
  | zero => rw [Nat.zero_add, runSteps_zero]
  | succ m ih =>
    cases hst : s.status with
    | halted e => simp only [runSteps_of_halted hst]
    | run =>
      obtain ⟨t, ht⟩ := exists_step_next hst
      rw [Nat.add_right_comm, runSteps_succ ht, runSteps_succ ht, ih]

/-- While a run is in `RUN`, one more unit of budget is one more step. -/
theorem step_runSteps {s : State} {k : Nat} (hr : (runSteps k s).status = .run) :
    step (runSteps k s) = .next (runSteps (k + 1) s) := by
  obtain ⟨t, ht⟩ := exists_step_next hr
  rw [runSteps_add, runSteps_succ ht, runSteps_zero, ht]

end Machine

/-- Settles O35: a step in `RUN` fails its fetch, fails its decode or runs an instruction, and each answers a state. -/
theorem stepIsEnabledExactlyInRun : Obligations.StepIsEnabledExactlyInRun :=
  ⟨fun _ hr => exists_step_next hr, fun _ _ he => ⟨step_of_halted he, runSteps_of_halted he⟩, rfl⟩

/-- Settles O32: a fitting fetch that decodes leaves the step nothing but the instruction. -/
theorem stepRunsTheDecodedInstruction : Obligations.StepRunsTheDecodedInstruction :=
  fun _ _ hr hbase hfit hd => step_eq_exec hr hbase hfit hd

/-- Settles O41: commits and failures write no memory. -/
theorem nothingWritesMemory : Obligations.NothingWritesMemory :=
  ⟨fun _ _ _ h => exec_mem h,
    fun n s => runSteps_induction (P := fun t => t.mem = s.mem) (fun _ _ hs h => (step_mem h).trans hs) n rfl⟩

/-- Settles O46: by induction on the first budget. -/
theorem runsCompose : Obligations.RunsCompose :=
  ⟨runSteps_zero, fun n _ _ h => runSteps_succ h n, fun n _ _ he => runSteps_of_halted he n, runSteps_add⟩

/-- Settles O47, by induction on the budget: the last step fails, or the run had failed before it and stays so. -/
theorem runEndsAtTheFirstFailure : Obligations.RunEndsAtTheFirstFailure := by
  intro n s hr
  induction n with
  | zero =>
    refine .inl fun k hk => ?_
    rwa [Nat.le_zero.1 hk]
  | succ n ih =>
    obtain hrun | ⟨k, e, hk, hbefore, hend, hhalts⟩ := ih
    · by_cases hlast : (runSteps (n + 1) s).status = .run
      · exact .inl fun k hk => (Nat.le_succ_iff.1 hk).elim (hrun k) fun h => h ▸ hlast
      · have hstep := step_runSteps (hrun n le_rfl)
        obtain ⟨e, hhalts, -⟩ := failingStepChangesOnlyTheStatus _ _ hstep hlast
        exact .inr ⟨n, e, n.lt_succ_self, hrun, rfl, hhalts⟩
    · have hstay : runSteps (n + 1) s = runSteps n s := by
        rw [runSteps_add n 1, runSteps_of_halted hhalts.status]
      rw [hstay]
      exact .inr ⟨k, e, hk.trans n.lt_succ_self, hbefore, hend, hhalts⟩

/-! ### Loaded programs -/

/-- Settles O42: reset lists no byte and is in `RUN`. -/
theorem resetIsSound : Obligations.ResetIsSound :=
  ⟨rfl, rfl, rfl, nofun⟩

/-- Settles O43: a load changes the reset state's memory only, and keeps it canonical. -/
theorem loadedProgramIsSound : Obligations.LoadedProgramIsSound := by
  intro words s h
  cases eq_of_loadProgram_ok h
  exact ⟨resetIsSound.x0_zero, resetIsSound.pc_aligned, Memory.wf_loadWords resetIsSound.mem_wf _ _, nofun⟩

namespace Machine

theorem length_le_of_loadProgram_ok {words : List Word} {s t : State} (h : loadProgram words s = .ok t) :
    words.length ≤ Config.maxWords := by
  unfold loadProgram at h
  split at h
  · assumption
  · cases h

/-- A word that fits in memory is read back as it was loaded. -/
theorem Memory.read32_loadWords {m : Memory} (hwf : m.wf = true) {a : Nat} {ws : List Word}
    (hfit : a + 4 * ws.length ≤ Config.memSize) {k : Nat} (hk : k < ws.length) :
    (m.loadWords a ws).read32 (a + 4 * k) = ws[k] := by
  have hbyte (d : Nat) (hd : d < 4) := Memory.read_loadWords_add hwf hfit hk hd
  rw [Memory.read32, hbyte 1 (by decide), hbyte 2 (by decide), hbyte 3 (by decide), ← Nat.add_zero (a + 4 * k),
    hbyte 0 (by decide), wordOfBytes_byteOfWord]

theorem Reachable.inv {words : List Word} {s : State} (h : Reachable words s) : Inv s := by
  induction h with
  | start hload => exact loadedProgramIsSound words _ hload
  | step _ hs ih => exact stepKeepsTheInvariant _ _ ih hs

/-- A run starts from an accepted load and leaves its memory alone. -/
theorem Reachable.mem_eq {words : List Word} {s : State} (h : Reachable words s) :
    words.length ≤ Config.maxWords ∧ s.mem = Memory.loadWords Config.base words [] := by
  induction h with
  | start hload =>
    cases eq_of_loadProgram_ok hload
    exact ⟨length_le_of_loadProgram_ok hload, rfl⟩
  | step _ hs ih => exact ⟨ih.1, (step_mem hs).trans ih.2⟩

end Machine

/-- Settles O45: a run keeps the invariant and the loaded memory, in which word `k` stands at its address. -/
theorem reachedStatesFetchTheLoadedProgram : Obligations.ReachedStatesFetchTheLoadedProgram := by
  intro words s hreach
  obtain ⟨hlen, hmem⟩ := hreach.mem_eq
  refine ⟨hreach.inv, fun s₀ hload => ?_, fun k hk hpc => ?_⟩
  · cases eq_of_loadProgram_ok hload
    exact hmem
  · have hfit := base_add_le_memSize hlen
    have haddr : s.pc.toNat = Config.base + 4 * k := by
      rw [hpc, BitVec.toNat_ofNat, Nat.mod_eq_of_lt]
      simp only [Config.base, Config.memSize] at hfit
      omega
    rw [s.fetch_ok_iff, haddr, hmem, Memory.read32_loadWords Memory.wf_nil hfit hk]
    exact ⟨Nat.le_add_right .., by omega, rfl⟩

end Sys2Proof
end

section
/-! PROOFS. What each instruction writes, on plain numbers (spec/41_register_alu.md, spec/42_immediate_alu.md,
spec/43_loads.md, spec/44_jump.md). First the values of the operand forms, the ALU and the loads as numbers; an
instruction that retires a value then completes with the number it equals. -/

namespace Sys2Proof

open Sys2Proof.Machine

namespace Machine

/-! ### Operand values -/

theorem sext_eq_ofInt {n : Nat} (v : BitVec n) : sext v = BitVec.ofInt 32 v.toInt := rfl

theorem zext_eq_ofNat {n : Nat} (v : BitVec n) : zext v = BitVec.ofNat 32 v.toNat := (BitVec.ofNat_toNat 32 v).symm

/-- A register value plus a signed displacement, modulo 2^32 (R551, R604). -/
theorem add_sext_eq_ofInt {n : Nat} (a : Word) (v : BitVec n) : a + sext v = BitVec.ofInt 32 (a.toNat + v.toInt) := by
  rw [sext_eq_ofInt, BitVec.ofInt_add, BitVec.ofInt_natCast, BitVec.ofNat_toNat, BitVec.setWidth_eq]

theorem effectiveAddress_eq_loadAddress (s : State) (rs1 : RegIdx) (imm : BitVec 12) :
    effectiveAddress s rs1 imm = loadAddress (s.readReg rs1) imm := add_sext_eq_ofInt _ imm

theorem jumpTarget_eq_ofInt (s : State) (offset : BitVec 21) :
    jumpTarget s offset = BitVec.ofInt 32 (s.pc.toNat + offset.toInt) := add_sext_eq_ofInt _ offset

theorem toInt_sext {n : Nat} (hn : n ≤ 32) (v : BitVec n) : (sext v).toInt = v.toInt :=
  BitVec.toInt_signExtend_of_le hn

/-- A sign-extended value read unsigned is its signed value modulo 2^32 (D8). -/
theorem toNat_sext {n : Nat} (v : BitVec n) : ((sext v).toNat : Int) = v.toInt % 2 ^ 32 := by
  rw [sext_eq_ofInt, BitVec.toNat_ofInt]
  omega

theorem shiftAmount_eq_mod (b : Word) : shiftAmount b = b.toNat % 32 := BitVec.extractLsb'_toNat 0 5 b

theorem shiftAmount_shamtValue (shamt : BitVec 5) : shiftAmount (shamtValue shamt) = shamt.toNat := by
  have := shamt.isLt
  rw [shiftAmount_eq_mod, shamtValue, zext_eq_ofNat, BitVec.toNat_ofNat]
  omega

/-! ### The ALU on numbers -/

theorem alu_add_eq_ofNat (a b : Word) : alu .add a b = BitVec.ofNat 32 (a.toNat + b.toNat) :=
  BitVec.eq_of_toNat_eq ((toNat_alu_add a b).trans (BitVec.toNat_ofNat ..).symm)

theorem alu_sub_eq_ofInt (a b : Word) : alu .sub a b = BitVec.ofInt 32 ((a.toNat : Int) - b.toNat) := by
  refine BitVec.eq_of_toNat_eq ?_
  have := toNat_alu_sub a b
  rw [BitVec.toNat_ofInt]
  omega

theorem shiftLeft_eq_ofNat (a : Word) (n : Nat) : a <<< n = BitVec.ofNat 32 (a.toNat * 2 ^ n) :=
  BitVec.eq_of_toNat_eq (by rw [BitVec.toNat_shiftLeft, Nat.shiftLeft_eq, BitVec.toNat_ofNat])

theorem ushiftRight_eq_ofNat (a : Word) (n : Nat) : a >>> n = BitVec.ofNat 32 (a.toNat / 2 ^ n) := by
  rw [← Nat.shiftRight_eq_div_pow, ← BitVec.toNat_ushiftRight, BitVec.ofNat_toNat, BitVec.setWidth_eq]

theorem sshiftRight_eq_ofInt (a : Word) (n : Nat) : a.sshiftRight n = BitVec.ofInt 32 (a.toInt / 2 ^ n) := by
  have hdiv : a.toInt >>> n = a.toInt / 2 ^ n := by rw [Int.shiftRight_eq_div_pow, Nat.cast_pow, Nat.cast_ofNat]
  rw [← hdiv, BitVec.sshiftRight]

theorem boolWord_decide (p : Prop) [Decidable p] : boolWord (decide p) = if p then 1#32 else 0#32 := by
  simp [boolWord]

theorem alu_slt_eq_ite (a b : Word) : alu .slt a b = if a.toInt < b.toInt then 1#32 else 0#32 := boolWord_decide _

theorem alu_sltu_eq_ite (a b : Word) : alu .sltu a b = if a.toNat < b.toNat then 1#32 else 0#32 := boolWord_decide _

/-- An instruction that retires a value completes with the number it is. -/
theorem completes_of_retires {i : Instr} {s : State} {rd : RegIdx} {v v' : Word}
    (hx : exec i s = .next (s.retire rd v)) (hv : v = v') :
    ∃ t, exec i s = .next t ∧ Writes s t rd v' (s.pc + 4#32) := ⟨_, hx, hv ▸ writes_retire s rd v⟩

end Machine

/-! ### Register-register and register-immediate instructions -/

/-- Settles O17: the ALU's sum and difference are those of the numbers, wrapped. -/
theorem addSubWriteSumAndDifference : Obligations.AddSubWriteSumAndDifference := fun _ _ _ _ =>
  ⟨completes_of_retires rfl (alu_add_eq_ofNat ..), completes_of_retires rfl (alu_sub_eq_ofInt ..)⟩

/-- Settles O18: the ALU takes the amount modulo 32. -/
theorem registerShiftsUseLowFiveBits : Obligations.RegisterShiftsUseLowFiveBits := by
  intro s rd rs1 rs2 a n
  have hn : shiftAmount (s.readReg rs2) = n := shiftAmount_eq_mod _
  refine ⟨completes_of_retires rfl ?_, completes_of_retires rfl ?_, completes_of_retires rfl ?_⟩
  · rw [← shiftLeft_eq_ofNat, alu, hn]
  · rw [← ushiftRight_eq_ofNat, alu, hn]
  · rw [← sshiftRight_eq_ofInt, alu, hn]

/-- Settles O19: each comparison is the ALU's, in its own reading of the words. -/
theorem registerComparesWriteOneOrZero : Obligations.RegisterComparesWriteOneOrZero := fun _ _ _ _ =>
  ⟨completes_of_retires rfl (alu_slt_eq_ite ..), completes_of_retires rfl (alu_sltu_eq_ite ..)⟩

/-- Settles O20: the ALU's bitwise operations on the two registers. -/
theorem registerLogicIsBitwise : Obligations.RegisterLogicIsBitwise := fun _ _ _ _ =>
  ⟨completes_of_retires rfl rfl, completes_of_retires rfl rfl, completes_of_retires rfl rfl⟩

/-- Settles O21: the immediate is added with its sign. -/
theorem addImmediateWritesSum : Obligations.AddImmediateWritesSum := fun _ _ _ imm =>
  completes_of_retires rfl (add_sext_eq_ofInt _ imm)

/-- Settles O22: the sign-extended immediate keeps its signed value, and read unsigned is that modulo 2^32. -/
theorem immediateComparesWriteOneOrZero : Obligations.ImmediateComparesWriteOneOrZero := by
  intro s rd rs1 imm a
  refine ⟨completes_of_retires rfl ?_, completes_of_retires rfl ((alu_sltu_eq_ite ..).trans (if_congr ?_ rfl rfl))⟩
  · rw [alu_slt_eq_ite, immValue, toInt_sext (by decide)]
  · rw [← toNat_sext, Int.ofNat_lt, immValue]

/-- Settles O23: the second operand is the sign-extended immediate. -/
theorem immediateLogicIsBitwise : Obligations.ImmediateLogicIsBitwise := fun _ _ _ _ =>
  ⟨completes_of_retires rfl rfl, completes_of_retires rfl rfl, completes_of_retires rfl rfl⟩

/-- Settles O24: the amount is the 5-bit field itself. -/
theorem immediateShiftsShiftByShamt : Obligations.ImmediateShiftsShiftByShamt := by
  intro s rd rs1 shamt a n
  have hn : shiftAmount (shamtValue shamt) = n := shiftAmount_shamtValue shamt
  refine ⟨completes_of_retires rfl ?_, completes_of_retires rfl ?_, completes_of_retires rfl ?_⟩
  · rw [← shiftLeft_eq_ofNat, alu, hn]
  · rw [← ushiftRight_eq_ofNat, alu, hn]
  · rw [← sshiftRight_eq_ofInt, alu, hn]

/-! ### Loads -/

namespace Machine

/-- For the widths of the five loads, an aligned address in memory fits (R552). -/
theorem loadAddressOk_iff_lt {n : Nat} (hn : n ∈ [1, 2, 4]) (ea : Word) :
    loadAddressOk n ea = true ↔ ea.toNat < 0x10000 ∧ ea.toNat % n = 0 := by
  rw [loadAddressOk_iff, Config.memSize]
  simp only [List.mem_cons, List.not_mem_nil, or_false] at hn
  rcases hn with rfl | rfl | rfl <;> omega

section
variable {n : Nat} {s : State} {rs1 : RegIdx} {imm : BitVec 12}

theorem load_completes (hn : n ∈ [1, 2, 4])
    (hok : (loadAddress (s.readReg rs1) imm).toNat < 0x10000 ∧ (loadAddress (s.readReg rs1) imm).toNat % n = 0)
    {value : Memory → Nat → Word} {v : Word} (hv : value s.mem (loadAddress (s.readReg rs1) imm).toNat = v)
    (rd : RegIdx) : ∃ t, load n value rd rs1 imm s = .next t ∧ Writes s t rd v (s.pc + 4#32) := by
  rw [← effectiveAddress_eq_loadAddress] at hok hv
  exact ⟨_, load_of_ok ((loadAddressOk_iff_lt hn _).2 hok) value rd, hv ▸ writes_retire s rd _⟩

theorem load_halts (hn : n ∈ [1, 2, 4])
    (hbad : 0x10000 ≤ (loadAddress (s.readReg rs1) imm).toNat ∨ (loadAddress (s.readReg rs1) imm).toNat % n ≠ 0)
    (value : Memory → Nat → Word) (rd : RegIdx) :
    ∃ t, load n value rd rs1 imm s = .next t ∧
      HaltsWith s t (.invalidMemoryAddress s.pc (loadAddress (s.readReg rs1) imm)) := by
  have hnot : loadAddressOk n (loadAddress (s.readReg rs1) imm) = false := by
    rw [Bool.eq_false_iff, ne_eq, loadAddressOk_iff_lt hn]
    omega
  rw [← effectiveAddress_eq_loadAddress] at hnot ⊢
  exact ⟨_, load_of_not_ok hnot value rd, haltsWith_raise s _⟩

end

/-- A halfword's signed value from its unsigned one. -/
theorem toInt_half (h : BitVec 16) : h.toInt = if h.toNat < 0x8000 then (h.toNat : Int) else h.toNat - 0x10000 := by
  rw [BitVec.toInt_eq_toNat_cond]
  split <;> split <;> omega

end Machine

/-- Settles O25: every address is aligned for a byte, so only the bound decides. -/
theorem byteLoadsReadOneByte : Obligations.ByteLoadsReadOneByte := by
  intro s rd rs1 imm ea
  simp only [exec_lb, exec_lbu]
  refine ⟨fun hlt => ?_, fun hge => ?_⟩
  · have hok : ea.toNat < 0x10000 ∧ ea.toNat % 1 = 0 := ⟨hlt, Nat.mod_one _⟩
    exact ⟨load_completes (by decide) hok (sext_eq_ofInt _) rd, load_completes (by decide) hok (zext_eq_ofNat _) rd⟩
  · have hhalts := load_halts (n := 1) (by decide) (.inl hge)
    exact ⟨hhalts _ rd, hhalts _ rd⟩

/-- Settles O26: the bound and the alignment decide, and the value is the sum of its two bytes. -/
theorem halfwordLoadsReadTwoBytes : Obligations.HalfwordLoadsReadTwoBytes := by
  intro s rd rs1 imm ea n
  have hvalue : (s.mem.read16 ea.toNat).toNat = n := toNat_halfOfBytes ..
  simp only [exec_lh, exec_lhu]
  refine ⟨fun hok => ⟨load_completes (by decide) hok ?_ rd, load_completes (by decide) hok ?_ rd⟩,
    fun hbad => ⟨load_halts (by decide) hbad _ rd, load_halts (by decide) hbad _ rd⟩⟩
  · rw [sext_eq_ofInt, toInt_half, hvalue]
  · rw [zext_eq_ofNat, hvalue]

/-- Settles O27: the bound and the alignment decide, and the value is the sum of its four bytes. -/
theorem wordLoadReadsFourBytes : Obligations.WordLoadReadsFourBytes := by
  intro s rd rs1 imm ea n
  refine ⟨fun hok => load_completes (by decide) hok ?_ rd, fun hbad => load_halts (by decide) hbad _ rd⟩
  have hvalue : (s.mem.read32 ea.toNat).toNat = n := toNat_wordOfBytes ..
  rw [← hvalue, BitVec.ofNat_toNat, BitVec.setWidth_eq]

/-! ### The jump -/

namespace Machine

/-- The alignment check reads the offset's pattern; it is a test on its signed value (R602). -/
theorem jumpAligned_iff (offset : BitVec 21) : jumpAligned offset = true ↔ offset.toInt % 4 = 0 := by
  have := toNat_sext offset
  rw [jumpAligned, decide_eq_true_iff, offsetValue]
  omega

end Machine

/-- Settles O29: the alignment check decides between the jump and the failure. -/
theorem jalLinksItsOwnAddress : Obligations.JalLinksItsOwnAddress := by
  intro s rd offset
  refine ⟨fun h => ?_, fun h => ?_⟩
  · rw [exec_jal_of_aligned ((jumpAligned_iff offset).2 h), jumpTarget_eq_ofInt]
    exact ⟨_, rfl, writes_commit ..⟩
  · rw [exec_jal_of_not_aligned (Bool.eq_false_iff.2 (mt (jumpAligned_iff offset).1 h))]
    exact ⟨_, rfl, haltsWith_raise ..⟩

/-- Settles O30: the `jal` commits its link without a look at the target, and the next step fails its pc check. -/
theorem outOfRangeJumpFailsAtTheNextStep : Obligations.OutOfRangeJumpFailsAtTheNextStep := by
  intro s rd offset hr hbase hfit hd halign target hout
  obtain ⟨t, hx, hwrites⟩ := (jalLinksItsOwnAddress s rd offset).1 halign
  have hrun : t.status = .run := hwrites.status.trans hr
  have htarget : t.pc = target := hwrites.pc
  rw [← htarget] at hout ⊢
  obtain ⟨u, hu, hhalts⟩ := step_halts_of_fetch_error hrun (State.fetch_of_pc_out_of_range hout)
  refine ⟨t, u, (step_eq_exec hr hbase hfit hd).trans hx, hrun, rfl, hu, hhalts, ?_⟩
  rw [hhalts.regs, hwrites.result]

end Sys2Proof
end

section
/-! PROOFS. What a step depends on (spec/40_execution_cycle.md R411): two states that read alike step alike. And the
word placed for the host's question is the one the next step runs (log entry 12). -/

namespace Sys2Proof

open Sys2Proof.Machine

namespace Machine

/-! ### States that read alike -/

/-- Two states that no read tells apart; only the slot of `x0` and the listing of memory may differ. -/
structure ReadsAlike (s s' : State) : Prop where
  status : s.status = s'.status
  pc : s.pc = s'.pc
  regs : ∀ r, s.readReg r = s'.readReg r
  bytes : ∀ a, s.mem.read a = s'.mem.read a

/-- A register that is not the written one reads as before. -/
theorem State.readReg_commit (s : State) (rd : RegIdx) (v target : Word) (r : RegIdx) :
    (s.commit rd v target).readReg r = if r = rd then (if rd = 0 then 0#32 else v) else s.readReg r := by
  have hwrites := writes_commit s rd v target
  split
  · rw [‹r = rd›, hwrites.result]
  · exact hwrites.others r ‹_›

namespace ReadsAlike

variable {s s' : State}

theorem raise (h : ReadsAlike s s') (e : ExecError) : ReadsAlike (s.raise e) (s'.raise e) :=
  ⟨rfl, h.pc, h.regs, h.bytes⟩

theorem commit (h : ReadsAlike s s') (rd : RegIdx) (v target : Word) :
    ReadsAlike (s.commit rd v target) (s'.commit rd v target) where
  status := by simpa using h.status
  pc := rfl
  regs r := by simp only [State.readReg_commit, h.regs]
  bytes a := by simpa using h.bytes a

theorem read16 (h : ReadsAlike s s') (a : Nat) : s.mem.read16 a = s'.mem.read16 a := by
  simp only [Memory.read16, h.bytes]

theorem read32 (h : ReadsAlike s s') (a : Nat) : s.mem.read32 a = s'.mem.read32 a := by
  simp only [Memory.read32, h.bytes]

theorem effectiveAddress (h : ReadsAlike s s') (rs1 : RegIdx) (imm : BitVec 12) :
    Machine.effectiveAddress s rs1 imm = Machine.effectiveAddress s' rs1 imm := by
  simp only [Machine.effectiveAddress, h.regs]

theorem pcInRange (h : ReadsAlike s s') : s.pcInRange = s'.pcInRange := by
  simp only [State.pcInRange, h.pc]

theorem fetch (h : ReadsAlike s s') : s.fetch = s'.fetch := by
  simp only [State.fetch, Memory.ifetch, h.pcInRange, h.pc, h.read32]

end ReadsAlike

/-- Both outcomes are next states, and these read alike. -/
def NextAlike (o o' : Host.Outcome State Fault Refusal) : Prop :=
  ∃ t t', o = .next t ∧ o' = .next t' ∧ ReadsAlike t t'

section
variable {s s' : State}

theorem nextAlike_raise (h : ReadsAlike s s') (e : ExecError) : NextAlike (.next (s.raise e)) (.next (s'.raise e)) :=
  ⟨_, _, rfl, rfl, h.raise e⟩

theorem nextAlike_commit (h : ReadsAlike s s') (rd : RegIdx) {v v' target target' : Word} (hv : v = v')
    (ht : target = target') : NextAlike (.next (s.commit rd v target)) (.next (s'.commit rd v' target')) :=
  ⟨_, _, rfl, rfl, hv ▸ ht ▸ h.commit rd v target⟩

theorem nextAlike_retire (h : ReadsAlike s s') (rd : RegIdx) {v v' : Word} (hv : v = v') :
    NextAlike (.next (s.retire rd v)) (.next (s'.retire rd v')) :=
  nextAlike_commit h rd hv (by simp only [State.nextPc, h.pc])

theorem nextAlike_load (h : ReadsAlike s s') {n : Nat} {value : Memory → Nat → Word}
    (hvalue : ∀ a, value s.mem a = value s'.mem a) (rd rs1 : RegIdx) (imm : BitVec 12) :
    NextAlike (load n value rd rs1 imm s) (load n value rd rs1 imm s') := by
  have hea := h.effectiveAddress rs1 imm
  cases hok : loadAddressOk n (effectiveAddress s rs1 imm) with
  | true =>
    rw [load_of_ok hok, load_of_ok (hea ▸ hok)]
    exact nextAlike_retire h rd (by rw [hea, hvalue])
  | false =>
    rw [load_of_not_ok hok, load_of_not_ok (hea ▸ hok), hea, h.pc]
    exact nextAlike_raise h _

/-- An instruction reads its operands, its pc and memory through the ports only. -/
theorem nextAlike_exec (h : ReadsAlike s s') (i : Instr) : NextAlike (exec i s) (exec i s') := by
  cases i with
  | jal rd offset =>
    cases hj : jumpAligned offset with
    | true =>
      rw [exec_jal_of_aligned hj, exec_jal_of_aligned hj]
      exact nextAlike_commit h rd h.pc (by simp only [jumpTarget, h.pc])
    | false =>
      rw [exec_jal_of_not_aligned hj, exec_jal_of_not_aligned hj, h.pc]
      exact nextAlike_raise h _
  | lb | lh | lw | lbu | lhu =>
    simp only [exec_lb, exec_lh, exec_lw, exec_lbu, exec_lhu]
    exact nextAlike_load h (fun a => by simp only [h.bytes, h.read16, h.read32]) ..
  | _ => exact nextAlike_retire h _ (by simp only [h.regs])

theorem nextAlike_step (h : ReadsAlike s s') (hr : s.status = .run) : NextAlike (step s) (step s') := by
  have hr' : s'.status = .run := h.status ▸ hr
  cases hf : s.fetch with
  | error e =>
    rw [step_of_fetch_error hr hf, step_of_fetch_error hr' (h.fetch ▸ hf)]
    exact nextAlike_raise h e
  | ok w =>
    cases hd : decode w with
    | error e =>
      rw [step_of_decode_error hr hf hd, step_of_decode_error hr' (h.fetch ▸ hf) hd, h.pc]
      exact nextAlike_raise h _
    | ok i =>
      rw [step_of_decode hr hf hd, step_of_decode hr' (h.fetch ▸ hf) hd]
      exact nextAlike_exec h i

end

end Machine

/-- Settles O40: the fetch, the decode and the instruction read the same in both states. -/
theorem stepDependsOnlyOnWhatIsRead : Obligations.StepDependsOnlyOnWhatIsRead := by
  intro s s' hr hr' hpc hregs hbytes
  obtain ⟨t, t', ht, ht', h⟩ := nextAlike_step ⟨hr.trans hr'.symm, hpc, hregs, hbytes⟩ hr
  exact ⟨t, t', ht, ht', h.status, h.pc, h.regs, h.bytes⟩

/-! ### The word placed for the host's question -/

namespace Machine

/-- A word written where it fits is read back. -/
theorem Memory.read32_write32 {m : Memory} (h : m.wf = true) {a : Nat} (ha : a + 4 ≤ Config.memSize) (w : Word) :
    (m.write32 a w).read32 a = w :=
  Memory.read32_loadWords (ws := [w]) h ha Nat.one_pos

theorem decode_tableWord {w : Nat} {i : Instr} (h : decodeTableWord 32 w = some i) :
    decode (tableWord 32 w) = .ok i := by
  unfold decodeTableWord at h
  simp only [bytesOfWord, decodeBytes, wordOfBytes_byteOfWord] at h
  cases hd : decode (tableWord 32 w) with
  | error e => simp [hd] at h
  | ok j => simpa [hd] using h

/-- A state made ready has a pc whose four bytes are in memory: its own, or the reset vector. -/
theorem State.readyToFetch_pc (s : State) :
    Config.base ≤ s.readyToFetch.pc.toNat ∧ s.readyToFetch.pc.toNat + 4 ≤ Config.memSize := by
  have hpc : s.readyToFetch.pc = if s.pcInRange && (s.mem.ifetch s.pc).isSome then s.pc else State.reset.pc := rfl
  rw [hpc]
  split
  case isTrue h =>
    obtain ⟨hin, hsome⟩ := Bool.and_eq_true_iff.1 h
    refine ⟨(s.pcInRange_iff.1 hin).1, ?_⟩
    by_contra hnot
    simp [Memory.ifetch, hnot] at hsome
  case isFalse => decide

end Machine

/-- Settles O48: the placed word stands at a pc the fetch reaches. -/
theorem placedWordIsTheNextInstruction : Obligations.PlacedWordIsTheNextInstruction := by
  intro s w i hwf hd
  obtain ⟨hbase, hfit⟩ := s.readyToFetch_pc
  refine ⟨step_eq_exec rfl hbase hfit ?_, fun _ => rfl⟩
  have hread : (s.withFetchWord 32 w).mem.read32 (s.withFetchWord 32 w).pc.toNat = tableWord 32 w :=
    Memory.read32_write32 hwf hfit _
  rw [hread]
  exact decode_tableWord hd

end Sys2Proof
end

section
/-! PROOFS. Which words decode to what (spec/30_encoding.md R331 to R345, spec/opcode_table.json): the rows of the
opcode table, the verdicts on every other word, and the arithmetic of the jump offset (R320). -/

namespace Sys2Proof

open Sys2Proof.Machine

/-! ### Rows of the opcode table

A word under its row's mask shows the fields that select the row, so it is the packed word of the row's instruction. -/

/-- A mask keeps a field that it covers. -/
theorem extract_and_of_covered {w mask : Word} {start len : Nat}
    (hmask : mask.extractLsb' start len = BitVec.allOnes len) :
    (w &&& mask).extractLsb' start len = w.extractLsb' start len := by
  rw [BitVec.extractLsb'_and, hmask, BitVec.and_allOnes]

theorem encodeR_of_row {w : Word} {funct7 : BitVec 7} {funct3 : BitVec 3} {opcode : BitVec 7}
    (h : w &&& 0xFE00707F#32 = place funct7 25 ||| place funct3 12 ||| place opcode 0) :
    encodeR funct7 (fieldsOf w).shamt (fieldsOf w).rs1 funct3 (fieldsOf w).rd opcode = w := by
  have hf7 := extract_and_of_covered (w := w) (mask := 0xFE00707F#32) (start := 25) (len := 7) (by decide)
  have hf3 := extract_and_of_covered (w := w) (mask := 0xFE00707F#32) (start := 12) (len := 3) (by decide)
  have hop := extract_and_of_covered (w := w) (mask := 0xFE00707F#32) (start := 0) (len := 7) (by decide)
  simp (disch := omega) only [h, BitVec.extractLsb'_or, extract_place, extract_place_of_disjoint, BitVec.or_zero,
    BitVec.zero_or] at hf7 hf3 hop
  exact encodeR_eq_of_fields hf7.symm hf3.symm hop.symm

theorem encodeI_of_row {w : Word} {funct3 : BitVec 3} {opcode : BitVec 7}
    (h : w &&& 0x0000707F#32 = place funct3 12 ||| place opcode 0) :
    encodeI (fieldsOf w).immBits (fieldsOf w).rs1 funct3 (fieldsOf w).rd opcode = w := by
  have hf3 := extract_and_of_covered (w := w) (mask := 0x0000707F#32) (start := 12) (len := 3) (by decide)
  have hop := extract_and_of_covered (w := w) (mask := 0x0000707F#32) (start := 0) (len := 7) (by decide)
  simp (disch := omega) only [h, BitVec.extractLsb'_or, extract_place, extract_place_of_disjoint, BitVec.or_zero,
    BitVec.zero_or] at hf3 hop
  exact encodeI_eq_of_fields hf3.symm hop.symm

theorem encodeJ_of_row {w : Word} {opcode : BitVec 7} (h : w &&& 0x0000007F#32 = place opcode 0) :
    encodeJ (fieldsOf w).jimmBits (fieldsOf w).rd opcode = w := by
  have hop := extract_and_of_covered (w := w) (mask := 0x0000007F#32) (start := 0) (len := 7) (by decide)
  rw [h, extract_place _ (by omega)] at hop
  exact encodeJ_eq_of_fields hop.symm

theorem decode_of_encode_eq {w : Word} {i : Instr} (hwf : i.wellFormed = true) (h : encode i = w) :
    decode w = .ok i := h ▸ decodeOfEncodeIsTheInstruction i hwf

/-- Settles O14: a word of such a row is the row's instruction packed with the word's own operands. -/
theorem functRowsDecode : Obligations.FunctRowsDecode := by
  intro w f
  refine ⟨?add, ?sub, ?sll, ?slt, ?sltu, ?xor, ?srl, ?sra, ?or, ?and, ?slli, ?srli, ?srai⟩
  all_goals exact fun h => decode_of_encode_eq rfl (encodeR_of_row h)

/-- Settles O15: as O14, with the immediate or the jump offset among the operands. -/
theorem immediateRowsDecode : Obligations.ImmediateRowsDecode := by
  intro w f
  refine ⟨?addi, ?slti, ?sltiu, ?xori, ?ori, ?andi, ?lb, ?lh, ?lw, ?lbu, ?lhu, ?jal⟩
  case jal =>
    have heven : (!f.jimmBits.getLsbD 0) = true := by rw [getLsbD_zero_jimmBits w]; rfl
    exact fun h => decode_of_encode_eq heven (encodeJ_of_row h)
  all_goals exact fun h => decode_of_encode_eq rfl (encodeI_of_row h)

/-- Settles O16: each word is the packed word of the instruction written. -/
theorem writtenOutWordsDecode : Obligations.WrittenOutWordsDecode := by
  refine ⟨?_, ?_, ?_, ?_, ?_, ?_⟩
  all_goals exact decode_of_encode_eq (by decide) (by decide)

/-! ### The verdict on a word, by its numeric fields -/

theorem funct3_fieldsOf_eq_iff (w : Word) {n : Nat} (hn : n < 2 ^ 3) :
    (fieldsOf w).funct3 = BitVec.ofNat 3 n ↔ funct3Nat w = n := by
  rw [← BitVec.toNat_inj, BitVec.toNat_ofNat, Nat.mod_eq_of_lt hn, fieldsOf, toNat_extractLsb'_eq_div_mod]

theorem funct7_fieldsOf_eq_iff (w : Word) {n : Nat} (hn : n < 2 ^ 7) :
    (fieldsOf w).funct7 = BitVec.ofNat 7 n ↔ funct7Nat w = n := by
  rw [← BitVec.toNat_inj, BitVec.toNat_ofNat, Nat.mod_eq_of_lt hn, fieldsOf, toNat_extractLsb'_of_top w rfl]

theorem needFunct7Zero_eq_error_iff (f : Fields) (i : Instr) (e : DecodeError) :
    needFunct7Zero f i = .error e ↔ e = .invalidFunct7 ∧ f.funct7 ≠ 0x00#7 := by
  unfold needFunct7Zero
  split <;> simp [*, eq_comm]

theorem pickFunct7_eq_error_iff (f : Fields) (i0 i1 : Instr) (e : DecodeError) :
    pickFunct7 f i0 i1 = .error e ↔ e = .invalidFunct7 ∧ f.funct7 ≠ 0x00#7 ∧ f.funct7 ≠ 0x20#7 := by
  unfold pickFunct7
  split
  · simp [*]
  · split <;> simp [*, eq_comm]

/-- R331 (D5): only the two rows of funct3 0 and 5 take funct7 0x20. -/
theorem decodeOp_eq_error_iff (f : Fields) (e : DecodeError) :
    decodeOp f = .error e ↔ e = .invalidFunct7 ∧ f.funct7 ≠ 0x00#7 ∧
      ¬(f.funct7 = 0x20#7 ∧ (f.funct3 = 0#3 ∨ f.funct3 = 5#3)) := by
  unfold decodeOp
  split <;> rename_i hf3 <;>
    simp [funct3_eq_of_toFin_eq hf3, pickFunct7_eq_error_iff, needFunct7Zero_eq_error_iff]

/-- R332 (D4): only the shifts look at funct7. -/
theorem decodeOpImm_eq_error_iff (f : Fields) (e : DecodeError) :
    decodeOpImm f = .error e ↔ e = .invalidFunct7 ∧
      ((f.funct3 = 1#3 ∧ f.funct7 ≠ 0x00#7) ∨ (f.funct3 = 5#3 ∧ f.funct7 ≠ 0x00#7 ∧ f.funct7 ≠ 0x20#7)) := by
  unfold decodeOpImm
  split <;> rename_i hf3 <;>
    simp [funct3_eq_of_toFin_eq hf3, pickFunct7_eq_error_iff, needFunct7Zero_eq_error_iff]

/-- R333 (D6). -/
theorem decodeLoad_eq_error_iff (f : Fields) (e : DecodeError) :
    decodeLoad f = .error e ↔ e = .unknownFunct3 ∧ (f.funct3 = 3#3 ∨ f.funct3 = 6#3 ∨ f.funct3 = 7#3) := by
  unfold decodeLoad
  split <;> rename_i hf3 <;> simp [funct3_eq_of_toFin_eq hf3, eq_comm]

/-- The dispatch on the opcode as a number (R330, R340). -/
theorem decode_eq_ite (w : Word) :
    decode w =
      if opcodeNat w = 0x33 then decodeOp (fieldsOf w)
      else if opcodeNat w = 0x13 then decodeOpImm (fieldsOf w)
      else if opcodeNat w = 0x03 then decodeLoad (fieldsOf w)
      else if opcodeNat w = 0x6F then decodeJal (fieldsOf w)
      else .error .unknownOpcode := by
  rw [decode, dispatchFields]
  simp (disch := decide) only [opcode_fieldsOf_eq_iff]

/-- Settles O12: the opcode picks the table, and each table has one verdict of its own. -/
theorem decodeVerdicts : Obligations.DecodeVerdicts := by
  intro w
  rw [decode_eq_ite]
  by_cases h33 : opcodeNat w = 0x33
  · simp (disch := decide) [h33, BadFunct7, decodeOp_eq_error_iff, funct3_fieldsOf_eq_iff, funct7_fieldsOf_eq_iff]
  by_cases h13 : opcodeNat w = 0x13
  · simp (disch := decide) [h13, BadFunct7, decodeOpImm_eq_error_iff, funct3_fieldsOf_eq_iff, funct7_fieldsOf_eq_iff]
  by_cases h03 : opcodeNat w = 0x03
  · simp (disch := decide) [h03, decodeLoad_eq_error_iff, funct3_fieldsOf_eq_iff]
  by_cases h6F : opcodeNat w = 0x6F
  · simp [h6F, decodeJal]
  · simp [h33, h13, h03, h6F]


/-- Settles O11: the words listed by R340 and those whose low bits are not 11 have none of the four opcodes. -/
theorem otherOpcodesRaiseUnknownOpcode : Obligations.OtherOpcodesRaiseUnknownOpcode := by
  have hother (w : Word) (h33 : w.toNat % 2 ^ 7 ≠ 0x33) (h13 : w.toNat % 2 ^ 7 ≠ 0x13) (h03 : w.toNat % 2 ^ 7 ≠ 0x03)
      (h6F : w.toNat % 2 ^ 7 ≠ 0x6F) : decode w = .error .unknownOpcode :=
    (decodeVerdicts w).2.2.2 ⟨h33, h13, h03, h6F⟩
  refine ⟨fun w h33 h13 h03 h6F => ⟨hother w h33 h13 h03 h6F, ?step⟩, fun w hmem => ?listed, ?zero, ?ones,
    fun w hlow => ?lowBits⟩
  case step =>
    rintro s hr hbase hfit rfl
    have hf := (s.fetch_ok_iff _).2 ⟨hbase, hfit, rfl⟩
    exact ⟨_, step_of_decode_error hr hf (hother _ h33 h13 h03 h6F), haltsWith_raise s _⟩
  case listed =>
    simp only [List.mem_cons, List.not_mem_nil, or_false] at hmem
    exact hother w (by omega) (by omega) (by omega) (by omega)
  case zero | ones => exact hother _ (by decide) (by decide) (by decide) (by decide)
  case lowBits => exact hother w (by omega) (by omega) (by omega) (by omega)

/-! ### The jump offset (R320) -/

/-- Bit 1 of the offset is bit 21 of the word, and bit 0 is 0. -/
theorem toNat_jimmBits_mod_four (w : Word) : (fieldsOf w).jimmBits.toNat % 4 = 2 * (w.toNat / 2 ^ 21 % 2) := by
  simp only [fieldsOf, jimmBitsOf, toNat_append_eq_add, toNat_extractLsb'_eq_div_mod w 21 10,
    BitVec.toNat_ofNat]
  omega

theorem toInt_jimm (f : Fields) : f.jimm.toInt = f.jimmBits.toInt := toInt_sext (by decide) _

theorem toInt_jimm_mod_four (w : Word) : (fieldsOf w).jimm.toInt % 4 = 2 * ((w.toNat / 2 ^ 21 % 2 : Nat) : Int) := by
  have hmod := toNat_jimmBits_mod_four w
  rw [toInt_jimm, BitVec.toInt_eq_toNat_cond]
  split <;> omega

theorem getLsbD_eq_false_iff {n : Nat} (v : BitVec n) (i : Nat) :
    v.getLsbD i = false ↔ v.toNat / 2 ^ i % 2 = 0 := by
  rw [BitVec.getLsbD, Nat.testBit_eq_decide_div_mod_eq, decide_eq_false_iff_not]
  omega

/-- Settles O8: the remainder modulo 4 is twice bit 21, and an even offset misses the largest value of 21 bits. -/
theorem jumpOffsetIsEvenAndBounded : Obligations.JumpOffsetIsEvenAndBounded := by
  intro w
  have hmod := toInt_jimm_mod_four w
  have hlo : -2 ^ 20 ≤ (fieldsOf w).jimm.toInt := toInt_jimm _ ▸ BitVec.le_toInt _
  have hhi : (fieldsOf w).jimm.toInt < 2 ^ 20 := toInt_jimm _ ▸ BitVec.toInt_lt
  rw [getLsbD_eq_false_iff]
  refine ⟨?_, ?_, ?_, ?_⟩ <;> omega

end Sys2Proof
end

section
/-! PROOFS. The failure of a step as the first failing test of R720 (spec/60_exceptions.md): the tests before the
instruction by the fetch and the verdict on the word, the last two by the instruction the word packs. -/

namespace Sys2Proof

open Sys2Proof.Machine

/-! ### The numeric fields of a packed word -/

theorem opcodeNat_eq_toNat (w : Word) : opcodeNat w = (fieldsOf w).opcode.toNat :=
  (BitVec.extractLsb'_toNat 0 7 w).symm

theorem opcodeNat_encodeR (funct7 : BitVec 7) (rs2 : BitVec 5) (rs1 rd : RegIdx) (funct3 : BitVec 3)
    (opcode : BitVec 7) : opcodeNat (encodeR funct7 rs2 rs1 funct3 rd opcode) = opcode.toNat := by
  rw [opcodeNat_eq_toNat, (fieldsOf_encodeR ..).1]

theorem opcodeNat_encodeI (imm : BitVec 12) (rs1 rd : RegIdx) (funct3 : BitVec 3) (opcode : BitVec 7) :
    opcodeNat (encodeI imm rs1 funct3 rd opcode) = opcode.toNat := by
  rw [opcodeNat_eq_toNat, (fieldsOf_encodeI ..).1]

theorem opcodeNat_encodeJ (offset : BitVec 21) (rd : RegIdx) (opcode : BitVec 7) :
    opcodeNat (encodeJ offset rd opcode) = opcode.toNat := by
  rw [opcodeNat_eq_toNat, (fieldsOf_encodeJ ..).1]

theorem funct3Nat_encodeI (imm : BitVec 12) (rs1 rd : RegIdx) (funct3 : BitVec 3) (opcode : BitVec 7) :
    funct3Nat (encodeI imm rs1 funct3 rd opcode) = funct3.toNat := by
  rw [funct3Nat, ← toNat_extractLsb'_eq_div_mod]
  exact congrArg BitVec.toNat (fieldsOf_encodeI imm rs1 rd funct3 opcode).2.2.1

theorem loadWidth_encodeI (imm : BitVec 12) (rs1 rd : RegIdx) (funct3 : BitVec 3) (opcode : BitVec 7) :
    loadWidth (encodeI imm rs1 funct3 rd opcode) =
      if funct3.toNat = 0 ∨ funct3.toNat = 4 then 1 else if funct3.toNat = 1 ∨ funct3.toNat = 5 then 2 else 4 := by
  simp only [loadWidth, funct3Nat_encodeI]

theorem wordLoadAddress_encodeI (s : State) (imm : BitVec 12) (rs1 rd : RegIdx) (funct3 : BitVec 3)
    (opcode : BitVec 7) :
    wordLoadAddress s (encodeI imm rs1 funct3 rd opcode) = effectiveAddress s rs1 imm := by
  obtain ⟨-, -, -, hrs1, himm⟩ := fieldsOf_encodeI imm rs1 rd funct3 opcode
  generalize encodeI imm rs1 funct3 rd opcode = w at hrs1 himm ⊢
  have hreg : (Fin.ofNat 32 (w.toNat / 2 ^ 15)) = rs1 :=
    hrs1 ▸ Fin.ext (toNat_extractLsb'_eq_div_mod w 15 5).symm
  have hbits : BitVec.ofNat 12 (w.toNat / 2 ^ 20) = imm := by
    rw [← himm, fieldsOf, ← toNat_extractLsb'_of_top w (len := 12) rfl, BitVec.ofNat_toNat, BitVec.setWidth_eq]
  rw [wordLoadAddress, hreg, hbits, effectiveAddress_eq_loadAddress]


namespace Machine

/-! ### The tests before the instruction -/

/-- The last two tests of R720, for a word `w` that decodes: the address of a load, the alignment of a jump. -/
def InstructionFails (s : State) (w : Word) (e : ExecError) : Prop :=
  (opcodeNat w = 0x03 ∧ (0x10000 < (wordLoadAddress s w).toNat + loadWidth w ∨
      (wordLoadAddress s w).toNat % loadWidth w ≠ 0) ∧ e = .invalidMemoryAddress s.pc (wordLoadAddress s w)) ∨
    (opcodeNat w = 0x6F ∧ w.getLsbD 21 = true ∧ e = .unalignedJump s.pc w)

section
variable {s : State} (e : ExecError)

theorem failsWith_of_pc_out_of_range (h : s.pc.toNat < 0x1000 ∨ 0x10000 ≤ s.pc.toNat) :
    FailsWith s e ↔ e = .pcOutOfBounds s.pc := by
  rw [FailsWith, if_pos h]

variable (hin : ¬(s.pc.toNat < 0x1000 ∨ 0x10000 ≤ s.pc.toNat))
include hin

theorem failsWith_of_past_the_end (h : 0x10000 < s.pc.toNat + 4) : FailsWith s e ↔ e = .invalidMemoryAccess s.pc := by
  rw [FailsWith, if_neg hin, if_pos h]

variable (hfit : ¬0x10000 < s.pc.toNat + 4)
include hfit

/-- The three decode tests of R720 are the three verdicts of the decoder. -/
theorem failsWith_of_decode_error {d : DecodeError} (h : decode (s.mem.read32 s.pc.toNat) = .error d) :
    FailsWith s e ↔ e = decodeFailure s.pc (s.mem.read32 s.pc.toNat) d := by
  obtain ⟨hfunct3, hfunct7, hopcode⟩ := decodeVerdicts (s.mem.read32 s.pc.toNat)
  simp only [FailsWith, if_neg hin, if_neg hfit, ← hopcode, ← hfunct3, ← hfunct7, h]
  cases d <;> simp [decodeFailure]

/-- A word that decodes leaves the last two tests. -/
theorem failsWith_of_decode_ok {i : Instr} (h : decode (s.mem.read32 s.pc.toNat) = .ok i) :
    FailsWith s e ↔ InstructionFails s (s.mem.read32 s.pc.toNat) e := by
  obtain ⟨hfunct3, hfunct7, hopcode⟩ := decodeVerdicts (s.mem.read32 s.pc.toNat)
  simp only [FailsWith, if_neg hin, if_neg hfit, ← hopcode, ← hfunct3, ← hfunct7, h, reduceCtorEq, if_false,
    InstructionFails]
  split
  case isTrue hbad => rw [and_iff_right hbad.1, and_iff_right hbad.2, hbad.1]; simp
  case isFalse hgood => exact (or_iff_right fun hload => hgood ⟨hload.1, hload.2.1⟩).symm

end

/-! ### The tests of the instruction -/

theorem not_loadAddressOk_iff (n : Nat) (ea : Word) :
    loadAddressOk n ea = false ↔ 0x10000 < ea.toNat + n ∨ ea.toNat % n ≠ 0 := by
  rw [Bool.eq_false_iff, ne_eq, loadAddressOk_iff, Config.memSize]
  omega

/-- A load of the width its word selects (R333). -/
theorem load_halted_iff {n : Nat} {value : Memory → Nat → Word} {rd rs1 : RegIdx} {imm : BitVec 12} {s t : State}
    (hr : s.status = .run) (h : load n value rd rs1 imm s = .next t) (e : ExecError) :
    t.status = .halted e ↔
      (0x10000 < (effectiveAddress s rs1 imm).toNat + n ∨ (effectiveAddress s rs1 imm).toNat % n ≠ 0) ∧
        e = .invalidMemoryAddress s.pc (effectiveAddress s rs1 imm) := by
  rw [← not_loadAddressOk_iff]
  cases hok : loadAddressOk n (effectiveAddress s rs1 imm) with
  | true =>
    cases (load_of_ok hok value rd).symm.trans h
    simp [hr]
  | false =>
    cases (load_of_not_ok hok value rd).symm.trans h
    simp [eq_comm]

theorem jal_halted_iff {rd : RegIdx} {offset : BitVec 21} {s t : State} (hr : s.status = .run)
    (h : exec (.jal rd offset) s = .next t) (e : ExecError) :
    t.status = .halted e ↔ jumpAligned offset = false ∧ e = .unalignedJump s.pc (encode (.jal rd offset)) := by
  cases hj : jumpAligned offset with
  | true =>
    cases (exec_jal_of_aligned hj rd s).symm.trans h
    simp [hr]
  | false =>
    cases (exec_jal_of_not_aligned hj rd s).symm.trans h
    simp [eq_comm]

theorem instructionFails_load {s : State} {w : Word} (hop : opcodeNat w = 0x03) (e : ExecError) :
    InstructionFails s w e ↔
      (0x10000 < (wordLoadAddress s w).toNat + loadWidth w ∨ (wordLoadAddress s w).toNat % loadWidth w ≠ 0) ∧
        e = .invalidMemoryAddress s.pc (wordLoadAddress s w) := by
  simp [InstructionFails, hop]

/-- The alignment of the offset a `jal` word holds is its bit 21 (R320). -/
theorem instructionFails_jal {s : State} {rd : RegIdx} {offset : BitVec 21}
    (hd : decode (encode (.jal rd offset)) = .ok (.jal rd offset)) (e : ExecError) :
    InstructionFails s (encode (.jal rd offset)) e ↔
      jumpAligned offset = false ∧ e = .unalignedJump s.pc (encode (.jal rd offset)) := by
  have hop : opcodeNat (encode (.jal rd offset)) = 0x6F := opcodeNat_encodeJ offset rd 0x6F#7
  have hoffset : (fieldsOf (encode (.jal rd offset))).jimmBits = offset := by
    rw [decode_of_opcodeNat_jal hop] at hd
    injection hd with hd
    injection hd
  obtain ⟨-, -, -, hbit⟩ := jumpOffsetIsEvenAndBounded (encode (.jal rd offset))
  rw [toInt_jimm, hoffset, ← jumpAligned_iff] at hbit
  rw [InstructionFails, hop, ← Bool.not_eq_false, ← hbit, Bool.not_eq_true]
  simp

/-- An instruction of another opcode passes both tests. -/
theorem not_instructionFails {s : State} {w : Word} (hop : opcodeNat w ∉ [0x03, 0x6F]) (e : ExecError) :
    ¬InstructionFails s w e := by
  simp only [List.mem_cons, List.not_mem_nil, or_false, not_or] at hop
  simp [InstructionFails, hop.1, hop.2]

/-- Every other instruction retires a value, whatever the state. -/
theorem retired_halted_iff {s t : State} {i : Instr} {rd : RegIdx} {v : Word} (hr : s.status = .run)
    (h : exec i s = .next t) (hx : exec i s = .next (s.retire rd v)) (hop : opcodeNat (encode i) ∉ [0x03, 0x6F])
    (e : ExecError) : t.status = .halted e ↔ InstructionFails s (encode i) e := by
  cases hx.symm.trans h
  simp [hr, not_instructionFails hop]

/-- An instruction halts exactly as its word fails. -/
theorem exec_halted_iff {i : Instr} {s t : State} (hr : s.status = .run) (hd : decode (encode i) = .ok i)
    (h : exec i s = .next t) (e : ExecError) : t.status = .halted e ↔ InstructionFails s (encode i) e := by
  cases i with
  | jal rd offset => rw [jal_halted_iff hr h, instructionFails_jal hd]
  | lb | lh | lw | lbu | lhu =>
    simp only [exec_lb, exec_lh, exec_lw, exec_lbu, exec_lhu] at h
    rw [load_halted_iff hr h, encode, instructionFails_load (opcodeNat_encodeI ..), wordLoadAddress_encodeI,
      loadWidth_encodeI]
    rfl
  | addi | slti | sltiu | xori | ori | andi =>
    exact retired_halted_iff hr h rfl (by rw [encode, opcodeNat_encodeI]; decide) e
  | _ => exact retired_halted_iff hr h rfl (by rw [encode, opcodeNat_encodeR]; decide) e

end Machine

/-- Settles O39: case by case where the step ends, its error is the one of the first failing test. -/
theorem stepFailsExactlyWithTheFirstFailingTest : Obligations.StepFailsExactlyWithTheFirstFailingTest := by
  intro s hr
  have raised {e' : ExecError} (e : ExecError) : (s.raise e').status = .halted e ↔ e = e' := by simp [eq_comm]
  by_cases hout : s.pc.toNat < 0x1000 ∨ 0x10000 ≤ s.pc.toNat
  · refine ⟨_, step_of_fetch_error hr (State.fetch_of_pc_out_of_range hout), fun e => ?_⟩
    rw [raised, failsWith_of_pc_out_of_range e hout]
  by_cases hpast : 0x10000 < s.pc.toNat + 4
  · have hin : 0x1000 ≤ s.pc.toNat ∧ s.pc.toNat < 0x10000 := by omega
    refine ⟨_, step_of_fetch_error hr (State.fetch_of_past_the_end hin hpast), fun e => ?_⟩
    rw [raised, failsWith_of_past_the_end e hout hpast]
  have hfits : 0x1000 ≤ s.pc.toNat ∧ s.pc.toNat + 4 ≤ 0x10000 := by omega
  have hf : s.fetch = .ok (s.mem.read32 s.pc.toNat) := (s.fetch_ok_iff _).2 ⟨hfits.1, hfits.2, rfl⟩
  cases hd : decode (s.mem.read32 s.pc.toNat) with
  | error d =>
    refine ⟨_, step_of_decode_error hr hf hd, fun e => ?_⟩
    rw [raised, failsWith_of_decode_error e hout hpast hd]
  | ok i =>
    obtain ⟨t, hx⟩ := exists_exec_next i s
    obtain ⟨-, hw⟩ := encodeOfDecodeIsTheWord _ _ hd
    refine ⟨t, (step_of_decode hr hf hd).trans hx, fun e => ?_⟩
    rw [failsWith_of_decode_ok e hout hpast hd, ← hw, exec_halted_iff hr (hw ▸ hd) hx]

end Sys2Proof
end

section
/-! PROOFS. The ports of the register file and of memory (spec/10_state.md R102, R103, R145; spec/20_memory.md R202):
reads after a write, and that a canonical memory is fixed by its bytes (log entry 11). -/

namespace Sys2Proof

open Sys2Proof.Machine

/-- Settles O2: the loader refuses by the length alone. -/
theorem overlongProgramIsRefused : Obligations.OverlongProgramIsRefused := by
  intro words s hlen
  have hlong : ¬words.length ≤ Config.maxWords := by
    simp only [Config.maxWords, Config.memSize, Config.base]
    omega
  exact if_neg hlong

/-- Settles O3: the written register reads the value, the others read as before. -/
theorem registerWriteThenRead : Obligations.RegisterWriteThenRead := by
  intro s r q v
  refine ⟨s.readReg_zero, ?_⟩
  by_cases hq : q = r
  · subst hq
    rw [s.readReg_writeReg_self, if_pos rfl]
  · rw [s.readReg_writeReg_of_ne hq, if_neg hq]
    split
    · rw [‹q = 0›, s.readReg_zero]
    · rfl

/-- Settles O5: each narrow read is the number its bytes add up to. -/
theorem narrowReadsOfAStoredWord : Obligations.NarrowReadsOfAStoredWord := by
  intro m a w hwf hfit
  have hbyte (k : Nat) (hk : k < 4) := Memory.toNat_read_write32_add hwf hfit w hk
  refine ⟨hbyte, ?low, ?high, Memory.read32_write32 hwf hfit w, fun b hout => ?outside⟩
  case low =>
    have hbyte0 := hbyte 0 (by decide)
    rw [Nat.add_zero] at hbyte0
    rw [Memory.read16, toNat_halfOfBytes, hbyte0, hbyte 1 (by decide)]
    omega
  case high =>
    rw [Memory.read16, toNat_halfOfBytes, Nat.add_assoc, hbyte 2 (by decide), hbyte 3 (by decide)]
    have := w.isLt
    omega
  case outside => rw [Memory.read_write32 hwf hfit, if_neg (by omega)]

namespace Machine

section
variable {lo k : Nat} {b : Byte} {m : Memory}

theorem Memory.read_cons_self : Memory.read ((k, b) :: m) k = b := if_pos rfl

theorem Memory.read_cons_of_ne {a : Nat} (h : k ≠ a) : Memory.read ((k, b) :: m) a = m.read a := if_neg h

/-- The first listed byte of a canonical memory is not the reset contents. -/
theorem Memory.read_head_ne (h : Memory.wfFrom lo ((k, b) :: m) = true) :
    Memory.read ((k, b) :: m) k ≠ Memory.unlisted := by
  obtain ⟨-, -, hb, -⟩ := Memory.wfFrom_cons.1 h
  rwa [Memory.read_cons_self]

/-- Of two canonical memories that read alike, neither starts below the bound of the other. -/
theorem Memory.head_not_lt {m' : Memory} {lo' : Nat} (h : Memory.wfFrom lo ((k, b) :: m) = true)
    (h' : Memory.wfFrom lo' m' = true) (hread : ∀ a, Memory.read ((k, b) :: m) a = m'.read a) : ¬k < lo' :=
  fun hlt => Memory.read_head_ne h ((hread k).trans (Memory.read_below h' hlt))

end

/-- The bound of a canonical list is its first address. -/
theorem Memory.wfFrom_head {lo k : Nat} {b : Byte} {m : Memory} (h : Memory.wfFrom lo ((k, b) :: m) = true) :
    Memory.wfFrom k ((k, b) :: m) = true :=
  Memory.wfFrom_cons.2 ⟨le_rfl, (Memory.wfFrom_cons.1 h).2⟩

/-- Canonical lists that read alike have the same first cell, and their tails read alike. -/
theorem Memory.eq_of_read_eq {lo : Nat} {m m' : Memory} (h : Memory.wfFrom lo m = true)
    (h' : Memory.wfFrom lo m' = true) (hread : ∀ a, m.read a = m'.read a) : m = m' := by
  induction m generalizing lo m' with
  | nil =>
    cases m' with
    | nil => rfl
    | cons c' m' => exact absurd (hread c'.1).symm (Memory.read_head_ne h')
  | cons c m ih =>
    cases m' with
    | nil => exact absurd (hread c.1) (Memory.read_head_ne h)
    | cons c' m' =>
      obtain ⟨k, b⟩ := c
      obtain ⟨k', b'⟩ := c'
      have hle := Memory.head_not_lt h (Memory.wfFrom_head h') hread
      have hge := Memory.head_not_lt h' (Memory.wfFrom_head h) fun a => (hread a).symm
      obtain rfl : k = k' := by omega
      obtain rfl : b = b' := by simpa only [Memory.read_cons_self] using hread k
      obtain ⟨-, -, -, htail⟩ := Memory.wfFrom_cons.1 h
      obtain ⟨-, -, -, htail'⟩ := Memory.wfFrom_cons.1 h'
      rw [ih htail htail' fun a => ?_]
      by_cases ha : k = a
      · rw [Memory.read_below htail (by omega), Memory.read_below htail' (by omega)]
      · simpa only [Memory.read_cons_of_ne ha] using hread a

end Machine

/-- Settles O6: beyond memory both read the reset contents, so they read alike everywhere. -/
theorem canonicalMemoryIsFixedByItsBytes : Obligations.CanonicalMemoryIsFixedByItsBytes := by
  intro m m' h h' hread
  refine Memory.eq_of_read_eq h h' fun a => ?_
  by_cases ha : a < 0x10000
  · exact hread a ha
  · rw [Memory.read_above h (Nat.not_lt.1 ha), Memory.read_above h' (Nat.not_lt.1 ha)]

end Sys2Proof
end

section
/-! PROOFS. The assembler on lines (spec/30_encoding.md R350, R351, R371): which line an assembly error names, which
lines are blank, and that every word it gives is a well-formed instruction's. -/

namespace Sys2Proof

open Sys2Proof.Machine

namespace Machine

/-! ### The first line that fails -/

theorem assemble_append_bad {before : List String} {line : String} {kind : AsmErrorKind}
    (hbefore : ∀ l ∈ before, ∃ r, parseLine l = .ok r) (hbad : parseLine line = .error kind) (after : List String) :
    assemble (before ++ line :: after) = .error (asmError kind line) := by
  induction before with
  | nil => exact (assemble_cons_eq_error_iff ..).2 (.inl ⟨kind, hbad, rfl⟩)
  | cons l before ih =>
    obtain ⟨hl, hbefore⟩ := List.forall_mem_cons.1 hbefore
    exact (assemble_cons_eq_error_iff ..).2 (.inr ⟨hl, ih hbefore⟩)

theorem exists_first_bad_line {lines : List String} {e : AsmError} (h : assemble lines = .error e) :
    ∃ before line after kind, lines = before ++ line :: after ∧ (∀ l ∈ before, ∃ r, parseLine l = .ok r) ∧
      parseLine line = .error kind ∧ e = asmError kind line := by
  induction lines with
  | nil => cases h
  | cons line lines ih =>
    obtain ⟨kind, hbad, he⟩ | ⟨hline, hrest⟩ := (assemble_cons_eq_error_iff line lines e).1 h
    · exact ⟨[], line, lines, kind, rfl, by simp, hbad, he⟩
    · obtain ⟨before, bad, after, kind, rfl, hbefore, hbad, he⟩ := ih hrest
      exact ⟨line :: before, bad, after, kind, rfl, List.forall_mem_cons.2 ⟨hline, hbefore⟩, hbad, he⟩

end Machine

/-- Settles O51, by induction on the lines before the failing one. -/
theorem assemblyFailsAtTheFirstBadLine : Obligations.AssemblyFailsAtTheFirstBadLine := by
  intro lines e
  refine ⟨exists_first_bad_line, ?_⟩
  rintro ⟨before, line, after, kind, rfl, hbefore, hbad, rfl⟩
  exact assemble_append_bad hbefore hbad after

namespace Machine

/-! ### Tokens and blank lines -/

theorem tokens_cons_of_separator {c : Char} (hc : isSeparator c = true) (line : List Char) :
    tokens (c :: line) = tokens line := by
  simp [tokens, List.splitOnP_cons_eq_if_modifyHead, hc]

/-- A character that is no separator stands in a token. -/
theorem tokens_cons_ne_nil {c : Char} (hc : isSeparator c = false) (line : List Char) : tokens (c :: line) ≠ [] := by
  obtain ⟨t, ts, hts⟩ := List.exists_cons_of_ne_nil (List.splitOnP_ne_nil isSeparator line)
  simp [tokens, List.splitOnP_cons_eq_if_modifyHead, hc, hts]

theorem tokens_eq_nil_iff (line : List Char) : tokens line = [] ↔ ∀ c ∈ line, isSeparator c = true := by
  induction line with
  | nil => simp [tokens]
  | cons c line ih =>
    cases hc : isSeparator c with
    | true => simp [tokens_cons_of_separator hc, ih, hc]
    | false => simp [tokens_cons_ne_nil hc, hc]

/-- Only a line without tokens parses to no instruction. -/
theorem parseTokens_eq_ok_none_iff (ts : List (List Char)) : parseTokens ts = .ok none ↔ ts = [] := by
  cases ts with
  | nil => simp [parseTokens]
  | cons m ops =>
    simp only [parseTokens, reduceCtorEq, iff_false]
    split
    · nofun
    · cases parseOperands _ ops <;> nofun

theorem assemble_cons_of_blank {line : String} (h : parseLine line = .ok none) (lines : List String) :
    assemble (line :: lines) = assemble lines := by
  rw [assemble, h]

/-- What a program assembles to after a common beginning depends on what the rest assembles to. -/
theorem assemble_append_congr {lines lines' : List String} (h : assemble lines = assemble lines')
    (before : List String) : assemble (before ++ lines) = assemble (before ++ lines') := by
  induction before with
  | nil => exact h
  | cons l before ih => simp only [List.cons_append, assemble, ih]

end Machine

/-- Settles O53: a line of separators has no token, and `assemble` passes over it. -/
theorem blankLinesTakeNoSlot : Obligations.BlankLinesTakeNoSlot := by
  intro line
  have hblank : parseLine line = .ok none ↔ ∀ c ∈ line.toList, isSeparator c = true :=
    (parseTokens_eq_ok_none_iff _).trans (tokens_eq_nil_iff _)
  exact ⟨hblank, fun hsep before after =>
    assemble_append_congr (assemble_cons_of_blank (hblank.2 hsep) after) before⟩

/-! ### The assembler makes well-formed instructions -/

namespace Machine

/-- The form makes well-formed instructions of all its operands; a jump form is given even offsets only. -/
def OperandForm.MakesWellFormed : OperandForm → Prop
  | .reg3 make => ∀ rd rs1 rs2, (make rd rs1 rs2).wellFormed = true
  | .regImm make => ∀ rd rs1 imm, (make rd rs1 imm).wellFormed = true
  | .regShift make => ∀ rd rs1 shamt, (make rd rs1 shamt).wellFormed = true
  | .load make => ∀ rd rs1 imm, (make rd rs1 imm).wellFormed = true
  | .jump make => ∀ rd offset, offset.getLsbD 0 = false → (make rd offset).wellFormed = true

theorem exists_mem_of_lookupMnemonic {t : List Char} {rows : List (String × OperandForm)} {form : OperandForm}
    (h : lookupMnemonic t rows = some form) : ∃ name, (name, form) ∈ rows := by
  induction rows with
  | nil => cases h
  | cons row rows ih =>
    unfold lookupMnemonic at h
    split at h
    · cases h
      exact ⟨row.1, List.mem_cons_self⟩
    · obtain ⟨name, hmem⟩ := ih h
      exact ⟨name, List.mem_cons_of_mem _ hmem⟩

theorem mnemonicTable_makesWellFormed : ∀ row ∈ mnemonicTable, row.2.MakesWellFormed := by
  simp [mnemonicTable, reg3Rows, regImmRows, regShiftRows, loadRows, jumpRows, OperandForm.MakesWellFormed,
    Instr.wellFormed]

theorem except_bind_eq_ok {ε α β : Type} {x : Except ε α} {f : α → Except ε β} {b : β} (h : x >>= f = .ok b) :
    ∃ a, x = .ok a ∧ f a = .ok b := by
  cases x with
  | error e => cases h
  | ok a => exact ⟨a, rfl, h⟩

/-- A parsed jump offset is even (R362). -/
theorem even_of_jumpOperand {t : List Char} {offset : BitVec 21} (h : jumpOperand t = .ok offset) :
    offset.getLsbD 0 = false := by
  unfold jumpOperand at h
  split at h
  · cases h
  · split at h
    · rename_i v _ hv
      cases h
      rw [getLsbD_eq_false_iff, BitVec.toNat_ofInt]
      omega
    · cases h

theorem wellFormed_of_parseOperands {form : OperandForm} (hform : form.MakesWellFormed) {ops : List (List Char)}
    {i : Instr} (h : parseOperands form ops = .ok i) : i.wellFormed = true := by
  unfold parseOperands at h
  split at h
  case h_1 | h_2 | h_3 =>
    obtain ⟨rd, -, h⟩ := except_bind_eq_ok h
    obtain ⟨rs1, -, h⟩ := except_bind_eq_ok h
    obtain ⟨v, -, h⟩ := except_bind_eq_ok h
    cases h
    exact hform ..
  case h_4 =>
    obtain ⟨rd, -, h⟩ := except_bind_eq_ok h
    obtain ⟨⟨rs1, imm⟩, -, h⟩ := except_bind_eq_ok h
    cases h
    exact hform ..
  case h_5 =>
    obtain ⟨rd, -, h⟩ := except_bind_eq_ok h
    obtain ⟨offset, hoffset, h⟩ := except_bind_eq_ok h
    cases h
    exact hform rd offset (even_of_jumpOperand hoffset)
  all_goals cases h

theorem wellFormed_of_parseTokens {ts : List (List Char)} {i : Instr} (h : parseTokens ts = .ok (some i)) :
    i.wellFormed = true := by
  cases ts with
  | nil => cases h
  | cons m ops =>
    rw [parseTokens] at h
    split at h
    · cases h
    · rename_i form hform
      obtain ⟨name, hmem⟩ := exists_mem_of_lookupMnemonic hform
      cases hi : parseOperands form ops with
      | error e => rw [hi] at h; cases h
      | ok j =>
        rw [hi] at h
        cases h
        exact wellFormed_of_parseOperands (mnemonicTable_makesWellFormed _ hmem) hi

/-- The words of an assembled text are encodings of instructions that lines parse to. -/
theorem exists_parseLine_of_mem_assemble {lines : List String} {words : List Word} (h : assemble lines = .ok words)
    {w : Word} (hw : w ∈ words) : ∃ line i, parseLine line = .ok (some i) ∧ encode i = w := by
  induction lines generalizing words with
  | nil =>
    cases h
    cases hw
  | cons line lines ih =>
    rw [assemble] at h
    split at h
    · cases h
    · exact ih h hw
    · rename_i i hline
      split at h
      · cases h
      · rename_i ws hws
        cases h
        obtain rfl | hmem := List.mem_cons.1 hw
        · exact ⟨line, i, hline, rfl⟩
        · exact ih hws hmem

end Machine

/-- Settles O49: each word is the encoding of a parsed, hence well-formed, instruction. -/
theorem assembledWordsDecode : Obligations.AssembledWordsDecode := by
  intro lines words h w hw
  obtain ⟨line, i, hline, rfl⟩ := exists_parseLine_of_mem_assemble h hw
  have hwf := wellFormed_of_parseTokens hline
  exact ⟨i, hwf, rfl, decodeOfEncodeIsTheInstruction i hwf⟩

end Sys2Proof
end

section
/-! PROOFS. The text of an instruction is read back (spec/30_encoding.md R351 to R363): decimal numbers, then the
operands, then the tokens of the line. -/

namespace Sys2Proof

open Sys2Proof.Machine

namespace Machine

/-! ### Decimal numbers (R355) -/

theorem digitValue_digitChar {n : Nat} (h : n < 10) : digitValue (digitChar n) = some n := by
  interval_cases n <;> rfl

theorem parseDigits_append_digit {acc n d : Nat} {ds : List Char} (h : parseDigits acc ds = some n) (hd : d < 10) :
    parseDigits acc (ds ++ [digitChar d]) = some (10 * n + d) := by
  induction ds generalizing acc with
  | nil =>
    cases h
    simp [parseDigits, digitValue_digitChar hd]
  | cons c ds ih =>
    rw [parseDigits] at h
    rw [List.cons_append, parseDigits]
    cases hc : digitValue c with
    | none => simp [hc] at h
    | some v => simpa [hc] using ih (by simpa [hc] using h)

theorem parseDigits_decimalFuel {fuel n : Nat} (h : n < fuel) : parseDigits 0 (decimalFuel fuel n) = some n := by
  induction fuel generalizing n with
  | zero => exact absurd h (Nat.not_lt_zero n)
  | succ fuel ih =>
    rw [decimalFuel]
    split
    · simp [parseDigits, digitValue_digitChar ‹n < 10›]
    · have hmod : n % 10 < 10 := Nat.mod_lt n (by decide)
      rw [parseDigits_append_digit (ih (n := n / 10) (by omega)) hmod, Nat.div_add_mod]

theorem decimal_eq_cons (n : Nat) : ∃ c cs, decimal n = c :: cs := by
  rw [decimal, decimalFuel]
  split
  · exact ⟨_, _, rfl⟩
  · exact List.exists_cons_of_ne_nil (List.append_ne_nil_of_right_ne_nil _ (List.cons_ne_nil _ _))

theorem parseNat_decimal (n : Nat) : parseNat (decimal n) = some n := by
  have hdigits : parseDigits 0 (decimal n) = some n := parseDigits_decimalFuel n.lt_succ_self
  obtain ⟨c, cs, hc⟩ := decimal_eq_cons n
  rw [hc] at hdigits ⊢
  exact hdigits

/-- A decimal is written with digits only. -/
theorem exists_digit_of_mem_decimalFuel {fuel n : Nat} {c : Char} (h : c ∈ decimalFuel fuel n) :
    ∃ d < 10, c = digitChar d := by
  induction fuel generalizing n with
  | zero => cases h
  | succ fuel ih =>
    rw [decimalFuel] at h
    split at h
    · exact ⟨n, ‹n < 10›, List.mem_singleton.1 h⟩
    · obtain h | h := List.mem_append.1 h
      · exact ih h
      · exact ⟨n % 10, Nat.mod_lt n (by decide), List.mem_singleton.1 h⟩

/-- No digit is one of the characters with a meaning of their own. -/
theorem digitChar_ne {d : Nat} (h : d < 10) :
    digitChar d ≠ '-' ∧ digitChar d ≠ '(' ∧ isSeparator (digitChar d) = false := by
  interval_cases d <;> decide

theorem decimal_plain {n : Nat} {c : Char} (h : c ∈ decimal n) : c ≠ '-' ∧ c ≠ '(' ∧ isSeparator c = false := by
  obtain ⟨d, hd, rfl⟩ := exists_digit_of_mem_decimalFuel h
  exact digitChar_ne hd

theorem parseInt_decimal (n : Nat) : parseInt (decimal n) = some (n : Int) := by
  obtain ⟨c, cs, hc⟩ := decimal_eq_cons n
  have hplain : c ≠ '-' := (decimal_plain (hc ▸ List.mem_cons_self)).1
  have hnat := parseNat_decimal n
  rw [hc] at hnat ⊢
  unfold parseInt
  split
  · rename_i heq
    exact absurd (List.cons.inj heq).1 hplain
  · rw [hnat]; rfl

theorem parseInt_decimalInt (v : Int) : parseInt (decimalInt v) = some v := by
  unfold decimalInt
  split
  · simp only [parseInt, parseNat_decimal]
    exact congrArg some (by omega : -(v.natAbs : Int) = v)
  · rw [parseInt_decimal, Int.natAbs_of_nonneg (by omega)]

theorem numberOperand_decimalInt (v : Int) : numberOperand (decimalInt v) = .ok v := by
  rw [numberOperand, parseInt_decimalInt]

theorem numberOperand_decimal (n : Nat) : numberOperand (decimal n) = .ok (n : Int) := by
  rw [numberOperand, parseInt_decimal]

/-! ### Operands (R357, R359 to R362) -/

theorem registerNumber_val (r : RegIdx) : registerNumber r.val = .ok r := dif_pos r.isLt

theorem registerOperand_registerText (r : RegIdx) : registerOperand (registerText r) = .ok r := by
  rw [registerText, registerOperand, parseNat_decimal]
  exact registerNumber_val r

theorem immediateInRange_toInt (imm : BitVec 12) : immediateInRange imm.toInt = true := by
  have hlo : -2 ^ 11 ≤ imm.toInt := BitVec.le_toInt imm
  have hhi : imm.toInt < 2 ^ 11 := BitVec.toInt_lt
  rw [immediateInRange, Bool.and_eq_true, decide_eq_true_iff, decide_eq_true_iff]
  omega

theorem immediateOperand_decimalInt (imm : BitVec 12) : immediateOperand (decimalInt imm.toInt) = .ok imm := by
  simp only [immediateOperand, numberOperand_decimalInt, immediateInRange_toInt, if_true, BitVec.ofInt_toInt]

theorem shiftOperand_decimal (shamt : BitVec 5) : shiftOperand (decimal shamt.toNat) = .ok shamt := by
  have hrange : 0 ≤ (shamt.toNat : Int) ∧ (shamt.toNat : Int) ≤ 31 := by omega
  simp only [shiftOperand, numberOperand_decimal, if_pos hrange, BitVec.ofInt_natCast, BitVec.ofNat_toNat,
    BitVec.setWidth_eq]

theorem jumpOperand_decimalInt {offset : BitVec 21} (heven : offset.getLsbD 0 = false) :
    jumpOperand (decimalInt offset.toInt) = .ok offset := by
  have hlo : -2 ^ 20 ≤ offset.toInt := BitVec.le_toInt offset
  have hhi : offset.toInt < 2 ^ 20 := BitVec.toInt_lt
  have hmod : offset.toInt % 2 = 0 := by
    rw [getLsbD_eq_false_iff] at heven
    rw [BitVec.toInt_eq_toNat_cond]
    split <;> omega
  have hrange : -1048576 ≤ offset.toInt ∧ offset.toInt ≤ 1048575 ∧ offset.toInt % 2 = 0 := by omega
  simp only [jumpOperand, numberOperand_decimalInt, if_pos hrange, BitVec.ofInt_toInt]

theorem decimalInt_plain {v : Int} {c : Char} (h : c ∈ decimalInt v) : c ≠ '(' ∧ isSeparator c = false := by
  unfold decimalInt at h
  split at h
  · obtain rfl | h := List.mem_cons.1 h
    · decide
    · exact (decimal_plain h).2
  · exact (decimal_plain h).2

/-- The offset of `offset(xN)` ends at the first parenthesis. -/
theorem matchLoadOperand_addressText (rs1 : RegIdx) (imm : BitVec 12) :
    matchLoadOperand (addressText rs1 imm) = some (imm.toInt, rs1.val) := by
  have hoffset : ∀ c ∈ decimalInt imm.toInt, (c != '(') = true := fun c hc => bne_iff_ne.2 (decimalInt_plain hc).1
  have htext : addressText rs1 imm = decimalInt imm.toInt ++ ('(' :: 'x' :: (decimal rs1.val ++ [')'])) := by
    simp [addressText, registerText]
  rw [matchLoadOperand, htext, List.takeWhile_append_of_pos hoffset, List.dropWhile_append_of_pos hoffset]
  simp [parseInt_decimalInt, parseNat_decimal]

theorem loadOperand_addressText (rs1 : RegIdx) (imm : BitVec 12) :
    loadOperand (addressText rs1 imm) = .ok (rs1, imm) := by
  simp only [loadOperand, matchLoadOperand_addressText, registerNumber_val, immediateInRange_toInt, BitVec.ofInt_toInt]

/-! ### Tokens of a line (R351) -/

/-- A token: not empty and without a separator. -/
structure IsToken (t : List Char) : Prop where
  ne_nil : t ≠ []
  no_separator : ∀ c ∈ t, isSeparator c = false

theorem isToken_of_all {t : List Char} (h : (!t.isEmpty && t.all (!isSeparator ·)) = true) : IsToken t := by
  simp only [Bool.and_eq_true, Bool.not_eq_true', List.isEmpty_eq_false_iff, List.all_eq_true] at h
  exact ⟨h.1, h.2⟩

theorem isToken_registerText (r : RegIdx) : IsToken (registerText r) :=
  ⟨nofun, List.forall_mem_cons.2 ⟨by decide, fun _ h => (decimal_plain h).2.2⟩⟩

theorem isToken_decimal (n : Nat) : IsToken (decimal n) := by
  obtain ⟨c, cs, hc⟩ := decimal_eq_cons n
  exact ⟨by simp [hc], fun _ h => (decimal_plain h).2.2⟩

theorem isToken_decimalInt (v : Int) : IsToken (decimalInt v) := by
  refine ⟨?_, fun _ h => (decimalInt_plain h).2⟩
  unfold decimalInt
  split
  · nofun
  · exact (isToken_decimal _).ne_nil

theorem isToken_addressText (rs1 : RegIdx) (imm : BitVec 12) : IsToken (addressText rs1 imm) := by
  have hparens : isSeparator '(' = false ∧ isSeparator ')' = false := by decide
  refine ⟨by simp [addressText], fun c hc => ?_⟩
  simp only [addressText, List.mem_append, List.mem_cons, List.not_mem_nil, or_false] at hc
  obtain (hc | rfl | hc) | rfl := hc
  · exact (decimalInt_plain hc).2
  · exact hparens.1
  · exact (isToken_registerText rs1).no_separator c hc
  · exact hparens.2

theorem tokens_of_isToken {t : List Char} (h : IsToken t) : tokens t = [t] := by
  simp [tokens, List.splitOnP_eq_singleton h.no_separator, h.ne_nil]

theorem tokens_append_space {t : List Char} (h : IsToken t) (line : List Char) :
    tokens (t ++ ' ' :: line) = t :: tokens line := by
  rw [tokens, List.splitOnP_append_cons_of_forall_mem h.no_separator ' ' (by decide),
    List.filter_cons_of_pos (by simpa using h.ne_nil), tokens]

theorem tokens_joinTokens {ts : List (List Char)} (h : ∀ t ∈ ts, IsToken t) : tokens (joinTokens ts) = ts := by
  induction ts with
  | nil => rfl
  | cons t ts ih =>
    obtain ⟨ht, hts⟩ := List.forall_mem_cons.1 h
    cases ts with
    | nil => exact tokens_of_isToken ht
    | cons u us => rw [joinTokens, tokens_append_space ht, ih hts]

/-! ### The line of an instruction (R363) -/

/-- Tokens that stay apart when joined, and parse to the instruction. -/
structure PrintsAs (ts : List (List Char)) (i : Instr) : Prop where
  parse : parseTokens ts = .ok (some i)
  apart : ∀ t ∈ ts, IsToken t

theorem printsAs_cons {name : String} {form : OperandForm} {ops : List (List Char)} {i : Instr}
    (hname : IsToken name.toList) (hlookup : lookupMnemonic name.toList mnemonicTable = some form)
    (hparse : parseOperands form ops = .ok i) (hops : ∀ t ∈ ops, IsToken t) : PrintsAs (name.toList :: ops) i where
  parse := by
    simp only [parseTokens, hlookup, hparse]
    rfl
  apart := List.forall_mem_cons.2 ⟨hname, hops⟩

section
variable {name : String} (hname : IsToken name.toList) (rd rs1 : RegIdx)
include hname

theorem printsAs_reg3 {make : RegIdx → RegIdx → RegIdx → Instr}
    (hlookup : lookupMnemonic name.toList mnemonicTable = some (.reg3 make)) (rs2 : RegIdx) :
    PrintsAs [name.toList, registerText rd, registerText rs1, registerText rs2] (make rd rs1 rs2) := by
  refine printsAs_cons hname hlookup ?_ (by simp [isToken_registerText])
  simp only [parseOperands, registerOperand_registerText]
  rfl

theorem printsAs_regImm {make : RegIdx → RegIdx → BitVec 12 → Instr}
    (hlookup : lookupMnemonic name.toList mnemonicTable = some (.regImm make)) (imm : BitVec 12) :
    PrintsAs [name.toList, registerText rd, registerText rs1, decimalInt imm.toInt] (make rd rs1 imm) := by
  refine printsAs_cons hname hlookup ?_ (by simp [isToken_registerText, isToken_decimalInt])
  simp only [parseOperands, registerOperand_registerText, immediateOperand_decimalInt]
  rfl

theorem printsAs_regShift {make : RegIdx → RegIdx → BitVec 5 → Instr}
    (hlookup : lookupMnemonic name.toList mnemonicTable = some (.regShift make)) (shamt : BitVec 5) :
    PrintsAs [name.toList, registerText rd, registerText rs1, decimal shamt.toNat] (make rd rs1 shamt) := by
  refine printsAs_cons hname hlookup ?_ (by simp [isToken_registerText, isToken_decimal])
  simp only [parseOperands, registerOperand_registerText, shiftOperand_decimal]
  rfl

theorem printsAs_load {make : RegIdx → RegIdx → BitVec 12 → Instr}
    (hlookup : lookupMnemonic name.toList mnemonicTable = some (.load make)) (imm : BitVec 12) :
    PrintsAs [name.toList, registerText rd, addressText rs1 imm] (make rd rs1 imm) := by
  refine printsAs_cons hname hlookup ?_ (by simp [isToken_registerText, isToken_addressText])
  simp only [parseOperands, registerOperand_registerText, loadOperand_addressText]
  rfl

theorem printsAs_jump {make : RegIdx → BitVec 21 → Instr}
    (hlookup : lookupMnemonic name.toList mnemonicTable = some (.jump make)) {offset : BitVec 21}
    (heven : offset.getLsbD 0 = false) :
    PrintsAs [name.toList, registerText rd, decimalInt offset.toInt] (make rd offset) := by
  refine printsAs_cons hname hlookup ?_ (by simp [isToken_registerText, isToken_decimalInt])
  simp only [parseOperands, registerOperand_registerText, jumpOperand_decimalInt heven]
  rfl

end

/-- Every instruction's mnemonic is a row of the table with the form of its operands. -/
theorem printsAs_instrTokens {i : Instr} (hwf : i.wellFormed = true) : PrintsAs (instrTokens i) i := by
  cases i with
  | jal rd offset => exact printsAs_jump (isToken_of_all (by decide)) rd rfl (by simpa [Instr.wellFormed] using hwf)
  | addi | slti | sltiu | xori | ori | andi => exact printsAs_regImm (isToken_of_all (by decide)) _ _ rfl _
  | slli | srli | srai => exact printsAs_regShift (isToken_of_all (by decide)) _ _ rfl _
  | lb | lh | lw | lbu | lhu => exact printsAs_load (isToken_of_all (by decide)) _ _ rfl _
  | _ => exact printsAs_reg3 (isToken_of_all (by decide)) _ _ rfl _

theorem parseLine_instrText {i : Instr} (hwf : i.wellFormed = true) : parseLine (instrText i) = .ok (some i) := by
  have hprints := printsAs_instrTokens hwf
  rw [parseLine, instrText, String.toList_ofList, tokens_joinTokens hprints.apart, hprints.parse]

end Machine

/-- Settles O50: the text of an instruction is the one line that parses to it. -/
theorem instructionTextAssembles : Obligations.InstructionTextAssembles := by
  intro i hwf
  simp only [assemble, parseLine_instrText hwf]

end Sys2Proof
end
